-- ==== Sys2Proof/Word.lean ====
section
/-! DEFINITION. The value widths of the framing core (spec R7, R8, R70): every value is unsigned. -/

namespace Sys2Proof

/-- One byte, 8 bits, bit 7 most significant (R7, R8). -/
abbrev Byte := BitVec 8

/-- A 16-bit port or field value: `op_arg`, `in_soil`, `in_light`, a payload field (R7, R70). -/
abbrev Half := BitVec 16

/-- The command word `cmd[19:0] = op_code ‖ op_arg` of an operation port (R70). -/
abbrev Cmd := BitVec 20

/-- A whole frame as one 64-bit string, byte `B0` in bits 63:56 (R60). -/
abbrev FrameWord := BitVec 64

end Sys2Proof
end

