-- ==== Sys2Proof/Config.lean ====
section
/-! DEFINITION. What is fixed for an instance or for the protocol (R3, R6, R22), and the model's free values (U4). -/

namespace Sys2Proof

/-- First byte of every frame, `HEADER` (R3, R6). -/
def header : Byte := 0xAA

/-- Last byte of every frame, `TAIL` (R3, R6). -/
def tail : Byte := 0x55

/-- The fixed payload width `W`, the only valid value of the LEN byte (R3, R6, R62). -/
def payloadWidth : Byte := 4

/-- Length of a valid frame in bytes, `FRAME_BYTES = W + 4` (R6, conflict C1). -/
def frameBytes : Nat := 8

/-- The two open construction parameters of a receiver (R6, R22, D4, D5). -/
structure Config where
  /-- `CAPACITY`: capacity of the Byte Stream Buffer in bytes. -/
  capacity : Nat
  /-- `MAX_FRAME`: the maximum allowed frame size of decoder step 4, in bytes of whole frame. -/
  maxFrame : Nat
  deriving DecidableEq, Repr

/-- The parameter values a configuration of the model may have (R6). -/
abbrev Config.Admissible (c : Config) : Prop :=
  8 ≤ c.capacity ∧ c.capacity ≤ 65535 ∧ 8 ≤ c.maxFrame ∧ c.maxFrame ≤ c.capacity ∧ c.maxFrame ≤ 258

/-- The reference values of R6 (D4, D5).
DESIGN CHOICE (log entry 1), unsafe: `State.reset` is built with them, no statement rests on them. -/
def Config.reference : Config := { capacity := 64, maxFrame := 32 }

/-- FREE VALUE (log entry 3), safe: what storage cell `MEM[i]` holds while no PUSH has written it (R24, R33, U4). -/
opaque Config.unwrittenCell : Nat → Byte

/-- FREE VALUE (log entry 9), safe: the 16 bits of `res_count` when the number to report exceeds 65535. -/
opaque Config.wideCount : Nat → Half

end Sys2Proof
end

