-- ==== Sys2Proof/Syntax.lean ====
section
/-! DEFINITION. The operations of spec/opcode_table.json as one inductive, and the port transactions they arrive in (R70, R71). -/

namespace Sys2Proof

/-- The two kinds of instance of the core (R20). -/
inductive Side where
  /-- Byte Stream Buffer, Frame Decoder and Checksum Function. -/
  | receiver
  /-- Frame Encoder and Checksum Function; it has no state. -/
  | sender
  deriving DecidableEq, Repr

/-- The two calling contexts of a receiver (R162). -/
inductive Context where
  /-- The byte-arrival event, which may only PUSH. -/
  | arrival
  /-- The cooperative poll, which may issue every receiver operation. -/
  | polling
  deriving DecidableEq, Repr

/-- The receiver port a PUSH comes in on (R70, R90). -/
inductive PushPort where
  /-- One transaction on the arrival port: no response. -/
  | arr
  /-- `op_code = 0x2` on the operation port. -/
  | op
  deriving DecidableEq, Repr

/-- A Sensor Reading: both fields 16 bits wide, the range 0..100 of `soilMoisture` not enforced (R31, D7). -/
structure Reading where
  soilMoisture : Half
  lightIntensity : Half
  deriving DecidableEq, Repr

/-- The instructions: one constructor per row of spec/opcode_table.json. -/
inductive Instr where
  /-- RESET, on either kind of instance (R170). -/
  | reset (side : Side)
  /-- CKSUM of the bytes on `op_data`, on either kind of instance (R81). -/
  | cksum (side : Side) (bytes : List Byte)
  /-- PUSH of one byte (R90). -/
  | push (port : PushPort) (byte : Byte)
  /-- PEEK at an offset from the front (R91). -/
  | peek (offset : Half)
  /-- POP (R92). -/
  | pop
  /-- SIZE (R93). -/
  | size
  /-- DSTEP, one decoder iteration (R113). -/
  | dstep
  /-- DECODE (R124). `arrivals` holds the bytes the arrival context pushes between its DSTEPs: entry k, in order,
  after the k-th DSTEP (R49). The document's own design has none: `[]`. -/
  | decode (arrivals : List (List Byte))
  /-- ENCODE of a reading (R140). -/
  | encode (reading : Reading)
  /-- SEND of a reading (R143). -/
  | send (reading : Reading)
  /-- FRAME: a frame-shaped word on the wire (R60), fields `s`, `l`, `c` of its pattern; it reaches the receiver as
  eight arrivals (R44). DESIGN CHOICE (log entry 5), unsafe. -/
  | frame (soilMoisture lightIntensity : Half) (checksum : Byte)
  deriving DecidableEq, Repr

/-- One transaction the surroundings put on a port (R70, R41). -/
inductive Transaction where
  /-- The receiver's arrival port `arr`: `arr_byte`. -/
  | arr (byte : Byte)
  /-- The receiver's operation port `op`: `cmd` and `op_data`, the context it is attributed to (R162), and `during`,
  the arrivals that fall while the operation runs (entry k after its k-th DSTEP; R49, R174). -/
  | rxOp (context : Context) (cmd : Cmd) (opData : List Byte) (during : List (List Byte))
  /-- The sender's operation port `op`: `cmd`, `op_data`, and the operand `in_soil`, `in_light`. -/
  | txOp (cmd : Cmd) (opData : List Byte) (reading : Reading)
  /-- Eight bytes of the serial channel delivered to the receiver one after the other, as one 64-bit string (R60, R44). -/
  | wire (word : FrameWord)
  deriving DecidableEq, Repr

end Sys2Proof
end

