-- ==== Sys2Proof/WellFormed.lean ====
section
/-! DEFINITION. Which instructions are well-formed: those some port transaction can carry. -/

namespace Sys2Proof

/-- CKSUM's operand is at most 255 bytes long, the width of its length field (R81, R82); nothing else is restricted. -/
def Instr.wellFormed : Instr → Bool
  | .reset _ => true
  | .cksum _ bytes => decide (bytes.length ≤ 255)
  | .push _ _ => true
  | .peek _ => true
  | .pop => true
  | .size => true
  | .dstep => true
  | .decode _ => true
  | .encode _ => true
  | .send _ => true
  | .frame _ _ _ => true

end Sys2Proof
end

