-- ==== Sys2Proof/Decode.lean ====
section
/-! DEFINITION. From port transactions to instructions, rejecting by name, and back (R60, R70, R71). -/

namespace Sys2Proof

/-! ## Fields -/

/-- `op_code = cmd[19:16]` (R71). -/
def opCode (c : Cmd) : BitVec 4 := c.extractLsb' 16 4

/-- `op_arg = cmd[15:0]` (R70). -/
def opArg (c : Cmd) : Half := c.extractLsb' 0 16

/-- `op_arg[7:0]` (R71). -/
def argByte (c : Cmd) : Byte := c.extractLsb' 0 8

/-- `cmd = op_code ‖ op_arg` (R70). -/
def makeCmd (op : BitVec 4) (arg : Half) : Cmd := op ++ arg

/-- `v[15:8]`, the byte that comes first (R45, R63). -/
def hiByte (v : Half) : Byte := v.extractLsb' 8 8

/-- `v[7:0]` (R45, R63). -/
def loByte (v : Half) : Byte := v.extractLsb' 0 8

/-- The eight bytes of the frame pattern with fields `s`, `l`, `c`, first on the wire first (R60). -/
def wireBytes (soil light : Half) (checksum : Byte) : List Byte :=
  [header, payloadWidth, hiByte soil, loByte soil, hiByte light, loByte light, checksum, tail]

/-- Bytes as one string of 64 bits, the first byte in the highest place (R60). -/
def packFrame (bytes : List Byte) : FrameWord :=
  BitVec.ofNat 64 (bytes.foldl (fun acc b => acc * 256 + b.toNat) 0)

/-! ## Decoding -/

/-- Why the model gives a transaction no meaning. -/
inductive DecodeError where
  /-- Operation codes `0xA`..`0xF` (R71, U9): refused, safe. -/
  | unassignedOpCode
  /-- A receiver operation sent to a sender or the reverse (R71, U9): refused, safe. -/
  | wrongInstance
  /-- An operation other than PUSH attributed to the arrival context (R162, U6, D22): refused, safe. -/
  | arrivalContext
  /-- A PUSH that would take effect inside an atomic operation (R49, R174, U5): refused, safe. -/
  | overlappingPush
  /-- CKSUM whose `op_data` is not `op_arg[7:0]` bytes long (R70, R81): no such transaction exists; refused, safe. -/
  | operandLength
  /-- A word on the wire that does not have the frame pattern of R60: it is no FRAME; refused, safe. -/
  | notFramePattern
  deriving DecidableEq, Repr

/-- CKSUM's operand bytes, exactly `op_arg[7:0]` of them (R81). -/
def decodeCksum (side : Side) (cmd : Cmd) (opData : List Byte) : Except DecodeError Instr :=
  if opData.length = (argByte cmd).toNat then .ok (.cksum side opData) else .error .operandLength

/-- The receiver's operation codes (R71). -/
def decodeReceiverCmd (cmd : Cmd) (opData : List Byte) (during : List (List Byte)) : Except DecodeError Instr :=
  match (opCode cmd).toNat with
  | 0 => .ok (.reset .receiver)
  | 1 => decodeCksum .receiver cmd opData
  | 2 => .ok (.push .op (argByte cmd))
  | 3 => .ok (.peek (opArg cmd))
  | 4 => .ok .pop
  | 5 => .ok .size
  | 6 => .ok .dstep
  | 7 => .ok (.decode during)
  | 8 => .error .wrongInstance
  | 9 => .error .wrongInstance
  | _ => .error .unassignedOpCode

/-- The sender's operation codes (R71). -/
def decodeSenderCmd (cmd : Cmd) (opData : List Byte) (reading : Reading) : Except DecodeError Instr :=
  match (opCode cmd).toNat with
  | 0 => .ok (.reset .sender)
  | 1 => decodeCksum .sender cmd opData
  | 2 => .error .wrongInstance
  | 3 => .error .wrongInstance
  | 4 => .error .wrongInstance
  | 5 => .error .wrongInstance
  | 6 => .error .wrongInstance
  | 7 => .error .wrongInstance
  | 8 => .ok (.encode reading)
  | 9 => .ok (.send reading)
  | _ => .error .unassignedOpCode

/-- PUSH is the sole operation of the arrival context (R162). -/
def mayIssue : Context → Instr → Bool
  | .polling, _ => true
  | .arrival, .push _ _ => true
  | .arrival, _ => false

/-- Arrivals may fall between the DSTEPs of a DECODE and inside no other operation (R49, R174). -/
def mayInterleave : Instr → List (List Byte) → Bool
  | .decode _, _ => true
  | _, during => during.isEmpty

/-- A transaction on the receiver's operation port. -/
def decodeReceiver (context : Context) (cmd : Cmd) (opData : List Byte) (during : List (List Byte)) :
    Except DecodeError Instr :=
  match decodeReceiverCmd cmd opData during with
  | .error e => .error e
  | .ok i =>
    if mayIssue context i = false then .error .arrivalContext
    else if mayInterleave i during = false then .error .overlappingPush
    else .ok i

/-- The FRAME row: the fixed fields HEADER, LEN and TAIL select it, `s`, `l`, `c` are its operands (R60). -/
def decodeWire (w : FrameWord) : Except DecodeError Instr :=
  if w.extractLsb' 56 8 = header ∧ w.extractLsb' 48 8 = payloadWidth ∧ w.extractLsb' 0 8 = tail then
    .ok (.frame (w.extractLsb' 32 16) (w.extractLsb' 16 16) (w.extractLsb' 8 8))
  else .error .notFramePattern

/-- The instruction a transaction stands for (R70, R71). -/
def decode : Transaction → Except DecodeError Instr
  | .arr b => .ok (.push .arr b)
  | .rxOp context cmd opData during => decodeReceiver context cmd opData during
  | .txOp cmd opData reading => decodeSenderCmd cmd opData reading
  | .wire w => decodeWire w

/-! ## Encoding -/

/-- An operation on either instance's operation port, from the polling context, nothing arriving meanwhile. -/
def onPort (side : Side) (cmd : Cmd) (opData : List Byte) : Transaction :=
  match side with
  | .receiver => .rxOp .polling cmd opData []
  | .sender => .txOp cmd opData { soilMoisture := 0, lightIntensity := 0 }

/-- The transaction of a well-formed instruction, ignored bits zero (R60, R71). -/
def encode : Instr → Transaction
  | .reset side => onPort side (makeCmd 0x0 0) []
  | .cksum side bytes => onPort side (makeCmd 0x1 (BitVec.ofNat 16 bytes.length)) bytes
  | .push .arr b => .arr b
  | .push .op b => onPort .receiver (makeCmd 0x2 (b.setWidth 16)) []
  | .peek offset => onPort .receiver (makeCmd 0x3 offset) []
  | .pop => onPort .receiver (makeCmd 0x4 0) []
  | .size => onPort .receiver (makeCmd 0x5 0) []
  | .dstep => onPort .receiver (makeCmd 0x6 0) []
  | .decode arrivals => .rxOp .polling (makeCmd 0x7 0) [] arrivals
  | .encode r => .txOp (makeCmd 0x8 0) [] r
  | .send r => .txOp (makeCmd 0x9 0) [] r
  | .frame soil light c => .wire (packFrame (wireBytes soil light c))

/-! ## The table's own words -/

/-- The transaction for an opcode-table row's word with operand words of zeros: a row wider than 32 bits (FRAME) is a
word on the wire; codes 8 and above go to the sender's port, the others to the receiver's, CKSUM with as many zero bytes
as its length field says. DESIGN CHOICE (log entry 6), safe: RESET and CKSUM exist on both ports. -/
def tableTransaction (nbits w : Nat) : Transaction :=
  if 32 < nbits then .wire (BitVec.ofNat 64 w)
  else
    let cmd : Cmd := BitVec.ofNat 20 w
    if 8 ≤ (opCode cmd).toNat then onPort .sender cmd []
    else if (opCode cmd).toNat = 1 then onPort .receiver cmd (List.replicate (argByte cmd).toNat 0)
    else onPort .receiver cmd []

/-- The instruction the decoder reads from a table row's word. -/
def decodeTableWord (nbits w : Nat) : Option Instr :=
  match decode (tableTransaction nbits w) with
  | .ok i => some i
  | .error _ => none

end Sys2Proof
end

