-- ==== Sys2Proof/Machine/State.lean ====
section
/-! DEFINITION. What the machine holds: one receiver's Byte Stream Buffer in its ring realisation (R20 to R25), the output
streams and responses of a run (R10, R70, R173), and the transactions still to come (R41, R50). The transient control
state DSTATE, the snapshot FR and the encoded frame EF live inside one operation and are no part of it (R27, R28, R29). -/

namespace Sys2Proof.Machine

/-- Storage cells as (index, byte) pairs, indexes strictly rising; a cell that is not listed has not been written. -/
abbrev Memory := List Host.Cell

/-- The five recovered errors of the decoder (R153 to R157). -/
inductive ErrorKind where
  /-- Step 2: header mismatch (R153). -/
  | noiseByte
  /-- Step 4: zero or over-maximum payload length claim (R154). -/
  | invalidLength
  /-- Step 7 (R155). -/
  | tailMismatch
  /-- Step 8 (R156). -/
  | checksumMismatch
  /-- Step 9 (R157). -/
  | unexpectedPayloadWidth
  deriving DecidableEq, Repr

/-- The named event codes (R158); their numbers are `EventCode.bits`. -/
inductive EventCode where
  | idle
  | needLen
  | needBody
  | accept
  | error (kind : ErrorKind)
  deriving DecidableEq, Repr

/-- One transaction on the event port: `ev_code`, `ev_byte` (R70, R158). -/
structure Event where
  code : EventCode
  byte : Byte
  deriving DecidableEq, Repr

/-- The five-way result of one decoder iteration (R113). -/
inductive IterResult where
  /-- Step 1: the buffer is empty. -/
  | idle
  /-- Step 3: fewer than 3 bytes are buffered. -/
  | needLen
  /-- Step 5: fewer than `frameLen` bytes are buffered. -/
  | needBody (frameLen : Nat)
  /-- A recovered error, with the byte that is discarded. -/
  | discard (kind : ErrorKind) (byte : Byte)
  /-- Step 10. -/
  | accept (reading : Reading)
  deriving DecidableEq, Repr

/-- The result of one operation on an operation port (R70, R71, R150). A failure carries no byte (D10). -/
inductive Response where
  /-- Status OK and no result: RESET, PUSH on the operation port, SEND. -/
  | done
  /-- Status OK and `res_byte`: CKSUM, PEEK, POP. -/
  | byte (b : Byte)
  /-- Status OK and `res_count`, a natural number (R7): SIZE, DECODE. -/
  | count (n : Nat)
  /-- Status OK and the five-way result of DSTEP (R113, D13). -/
  | iteration (r : IterResult)
  /-- Status OK and `res_frame`: ENCODE. -/
  | frame (w : FrameWord)
  /-- Status 1: a failed PEEK (R151). -/
  | outOfRange
  /-- Status 2: a failed POP (R152). -/
  | empty
  deriving DecidableEq, Repr

/-- The machine: a receiver and a sender (which has no state, R20), their outputs so far, and what is pending on the ports. -/
structure State where
  /-- `CAPACITY` and `MAX_FRAME`, constants of the receiver (R22, R30). -/
  config : Config
  /-- `MEM[0 .. CAPACITY-1]` (R24). -/
  mem : Memory
  /-- `HEAD`, the index of the cell holding `Q[0]` (R24). -/
  head : Nat
  /-- `COUNT`, the number of bytes buffered (R24). -/
  count : Nat
  /-- `TX`, the bytes handed to `sendByte`, oldest first (R10). -/
  tx : List Byte
  /-- `RD`, the readings emitted, oldest first (R10). -/
  rd : List Reading
  /-- `EV`, the decoder's events, oldest first (R10). -/
  ev : List Event
  /-- The responses on the receiver's operation port, oldest first (R70, R173). -/
  rxRes : List Response
  /-- The responses on the sender's operation port, oldest first (R70, R173). -/
  txRes : List Response
  /-- The transactions the surroundings have put on the ports and the core has not yet taken, in their total order (R50). -/
  input : List Transaction
  deriving DecidableEq, Repr

/-- Faults: none. "There is no concept of a fatal error inside the core" (R161); `OutOfRange` and `Empty` are responses,
after which the next operation proceeds normally (R151, R152). -/
inductive Fault where
  deriving DecidableEq, Repr

/-- Why the model gives a step no meaning. -/
inductive Refusal where
  /-- An arm of `exec` that has no meaning yet; none is left. Safe. -/
  | notModelled (mnemonic : String)
  /-- Raised by `step`: the next transaction is none the spec gives a meaning (U5, U6, U9). Safe. -/
  | undecodable (why : DecodeError)
  /-- Raised by `step`: the construction parameters are outside R6 (U12, D24). Safe. -/
  | inadmissibleConfig
  deriving DecidableEq, Repr

/-- Construction and reset (R33, R170, R171): an empty buffer, HEAD and COUNT 0, no cell written, empty outputs. The
parameters are the reference values (DESIGN CHOICE, log entry 1). -/
def State.reset : State :=
  { config := Config.reference, mem := [], head := 0, count := 0, tx := [], rd := [], ev := [],
    rxRes := [], txRes := [], input := [] }

end Sys2Proof.Machine
end

