-- ==== Sys2Proof/Machine/Ops.lean ====
section
/-! DEFINITION. The shared operations over the ring, the output streams and the ports (R25, R10, R70), what a recovered
error does (R160), and what stands for fetching an instruction. -/

namespace Sys2Proof.Machine

/-! ## Storage cells -/

/-- The byte of a written cell; none where nothing has been written (R33). -/
def Memory.read? : Memory → Nat → Option Byte
  | [], _ => none
  | (a, b) :: rest, i => if a = i then some b else Memory.read? rest i

/-- Writing one cell, indexes kept strictly rising. -/
def Memory.write : Memory → Nat → Byte → Memory
  | [], i, v => [(i, v)]
  | (a, b) :: rest, i, v =>
    if i < a then (i, v) :: (a, b) :: rest
    else if i = a then (i, v) :: rest
    else (a, b) :: Memory.write rest i v

/-- The canonical form: indexes strictly rising. (An unlisted cell reads as no value, so no entry can equal it.) -/
abbrev Memory.wf (m : Memory) : Prop := m.Pairwise (fun x y => x.1 < y.1)

/-- What cell `i` holds: the byte last written, or the free value of an unwritten cell (R24, U4). -/
def State.cell (s : State) (i : Nat) : Byte := (s.mem.read? i).getD (Config.unwrittenCell i)

/-! ## The ring (R24, R25) -/

/-- The index of the cell that holds `Q[i]`: `(HEAD + i) mod CAPACITY`. -/
def State.cellIndex (s : State) (i : Nat) : Nat := (s.head + i) % s.config.capacity

/-- `Q[i]` for `i < COUNT` (R24). -/
def State.byteAt (s : State) (i : Nat) : Byte := s.cell (s.cellIndex i)

/-- `Q`, the buffer content, front first: the abstraction function of R24. -/
def State.q (s : State) : List Byte := (List.range s.count).map s.byteAt

/-- The cell PUSH writes: the first free one, or the oldest byte's when the buffer is full (R25). -/
def pushCell (s : State) : Nat :=
  if s.count < s.config.capacity then s.cellIndex s.count else s.head

/-- PUSH on the ring: append, or evict and overwrite the oldest byte (R25, R90). -/
def pushByte (b : Byte) (s : State) : State :=
  if s.count < s.config.capacity then
    { s with mem := s.mem.write (pushCell s) b, count := s.count + 1 }
  else
    { s with mem := s.mem.write (pushCell s) b, head := s.cellIndex 1 }

/-- PUSHSEQ: one PUSH per byte, in order (R73). -/
def pushAll : List Byte → State → State
  | [], s => s
  | b :: rest, s => pushAll rest (pushByte b s)

/-- Removal of `k` bytes from the front; no cell is written (R25). -/
def dropFront (k : Nat) (s : State) : State :=
  { s with head := s.cellIndex k, count := s.count - k }

/-- RESET of the ring: `HEAD` and `COUNT` to 0, `MEM[]` not written (R170). -/
def clearBuffer (s : State) : State := { s with head := 0, count := 0 }

/-- PEEK's read: none is `OutOfRange`, exactly when the offset is not below `|Q|` (R91, R151). -/
def peekByte (i : Nat) (s : State) : Option Byte := if i < s.count then some (s.byteAt i) else none

/-! ## Outputs (R10): appended to, never read -/

/-- `emit RD(r)`. -/
def emitReading (r : Reading) (s : State) : State := { s with rd := s.rd ++ [r] }

/-- `emit EV(e)`. -/
def emitEvent (e : Event) (s : State) : State := { s with ev := s.ev ++ [e] }

/-- `emit TX(b)`, one `sendByte(b)`. -/
def emitTx (b : Byte) (s : State) : State := { s with tx := s.tx ++ [b] }

/-- `sendByte` once per byte, in order (R143). -/
def sendBytes : List Byte → State → State
  | [], s => s
  | b :: rest, s => sendBytes rest (emitTx b s)

/-- The response of an operation on the operation port of an instance (R70). -/
def respond (side : Side) (r : Response) (s : State) : State :=
  match side with
  | .receiver => { s with rxRes := s.rxRes ++ [r] }
  | .sender => { s with txRes := s.txRes ++ [r] }

/-! ## Errors -/

/-- A recovered error (R160): the front byte is removed and the event says so. Nothing is saved and no mode changes;
there is nothing to return from (R161), the next iteration starts at step 1. -/
def recoverError (kind : ErrorKind) (byte : Byte) (s : State) : State :=
  emitEvent { code := .error kind, byte := byte } (dropFront 1 s)

/-- A failure of a buffer operation (R150 to R152): returned to the caller, nothing else happens. -/
def reportFailure (r : Response) (s : State) : State := respond .receiver r s

/-! ## Taking the next transaction (R49, R50) -/

/-- The transaction at the head of the total order, and the state with it taken. -/
def takeTransaction (s : State) : Option (Transaction × State) :=
  match s.input with
  | [] => none
  | t :: rest => some (t, { s with input := rest })

/-- Arrivals that take effect before everything else that is pending. -/
def arriveNext (bytes : List Byte) (s : State) : State :=
  { s with input := bytes.map Transaction.arr ++ s.input }

end Sys2Proof.Machine
end

