-- ==== Sys2Proof/Machine/Operands.lean ====
section
/-! DEFINITION. Operand forms: bytes of a sequence, 16-bit fields, frames and readings (R9, R45, R60 to R65). -/

namespace Sys2Proof.Machine

/-- `s[i]` (R9). Every use is guarded by `i < |s|` (R126); what stands there otherwise is never reached. -/
def byteOf (s : List Byte) (i : Nat) : Byte := s.getD i 0

/-- A 16-bit field from its two bytes, the high-order byte first: `hi ‖ lo` (R45, R63). -/
def joinBytes (hi lo : Byte) : Half := hi ++ lo

/-- `frameLen = lenByte + 4`, a natural number, never reduced modulo 256 (R114, C1, D6). -/
def frameLen (lenByte : Byte) : Nat := lenByte.toNat + 4

/-- The reading in the payload of a frame: offsets 2 to 5 (R63). -/
def frameReading (f : List Byte) : Reading :=
  { soilMoisture := joinBytes (byteOf f 2) (byteOf f 3), lightIntensity := joinBytes (byteOf f 4) (byteOf f 5) }

end Sys2Proof.Machine
end

