-- ==== Sys2Proof/Machine/Flags.lean ====
section
/-! DEFINITION. The block has no flags (R23); what stands for them: predicates of `Q` that are never stored, and the codes
that statuses and events have on the ports (R23, R150, R158). -/

namespace Sys2Proof.Machine

/-- `size = |Q|` (R23). -/
def State.size (s : State) : Nat := s.count

/-- `empty = (|Q| = 0)` (R23). -/
def State.isEmpty (s : State) : Bool := decide (s.count = 0)

/-- `full = (|Q| = CAPACITY)` (R23). -/
def State.isFull (s : State) : Bool := decide (s.count = s.config.capacity)

/-- `status[1:0]` (R150). -/
def Response.status : Response → BitVec 2
  | .done => 0
  | .byte _ => 0
  | .count _ => 0
  | .iteration _ => 0
  | .frame _ => 0
  | .outOfRange => 1
  | .empty => 2

/-- `res_byte[7:0]`; none where the port carries no meaningful byte (R70, R91, R92, D10). -/
def Response.resByte : Response → Option Byte
  | .byte b => some b
  | .done => none
  | .count _ => none
  | .iteration _ => none
  | .frame _ => none
  | .outOfRange => none
  | .empty => none

/-- `res_count[15:0]` (R70): the number where 16 bits hold it, a free value where they do not (log entry 9). -/
def Response.resCount : Response → Option Half
  | .count n => some (if n ≤ 65535 then BitVec.ofNat 16 n else Config.wideCount n)
  | .done => none
  | .byte _ => none
  | .iteration _ => none
  | .frame _ => none
  | .outOfRange => none
  | .empty => none

/-- `res_frame[63:0]` (R70, R140). -/
def Response.resFrame : Response → Option FrameWord
  | .frame w => some w
  | .done => none
  | .byte _ => none
  | .count _ => none
  | .iteration _ => none
  | .outOfRange => none
  | .empty => none

/-- `ev_code[3:0]` (R158). -/
def EventCode.bits : EventCode → BitVec 4
  | .idle => 0x0
  | .needLen => 0x1
  | .needBody => 0x2
  | .accept => 0x3
  | .error .noiseByte => 0x4
  | .error .invalidLength => 0x5
  | .error .tailMismatch => 0x6
  | .error .checksumMismatch => 0x7
  | .error .unexpectedPayloadWidth => 0x8

/-- The stopping results of an iteration: `Idle`, `NeedLen`, `NeedBody` (R113). -/
def IterResult.stops : IterResult → Bool
  | .idle => true
  | .needLen => true
  | .needBody _ => true
  | .discard _ _ => false
  | .accept _ => false

/-- How many readings an iteration emits: one exactly when it accepts (R113). -/
def IterResult.readings : IterResult → List Reading
  | .accept r => [r]
  | .idle => []
  | .needLen => []
  | .needBody _ => []
  | .discard _ _ => []

end Sys2Proof.Machine
end

