-- ==== Sys2Proof/Machine/Buffer.lean ====
section
/-! DEFINITION. The Byte Stream Buffer's operations PUSH, PEEK, POP, SIZE (R90 to R93), RESET (R170), and a frame arriving
from the wire (R44, R60). -/

namespace Sys2Proof.Machine

/-- RESET (R170): a receiver's buffer becomes empty; a sender has no state. The output streams are append-only (D2). -/
def execReset (side : Side) (s : State) : Host.Outcome State Fault Refusal :=
  match side with
  | .receiver => .next (respond .receiver .done (clearBuffer s))
  | .sender => .next (respond .sender .done s)

/-- PUSH (R90): never blocks, never fails; the arrival port has no response (R70). -/
def execPush (port : PushPort) (byte : Byte) (s : State) : Host.Outcome State Fault Refusal :=
  match port with
  | .arr => .next (pushByte byte s)
  | .op => .next (respond .receiver .done (pushByte byte s))

/-- PEEK (R91): the byte at the offset, or `OutOfRange`; writes no state either way. -/
def execPeek (offset : Half) (s : State) : Host.Outcome State Fault Refusal :=
  match peekByte offset.toNat s with
  | some b => .next (respond .receiver (.byte b) s)
  | none => .next (reportFailure .outOfRange s)

/-- POP (R92): removes and returns the front byte, or `Empty`. -/
def execPop (s : State) : Host.Outcome State Fault Refusal :=
  match peekByte 0 s with
  | some b => .next (respond .receiver (.byte b) (dropFront 1 s))
  | none => .next (reportFailure .empty s)

/-- SIZE (R93): `|Q|`. -/
def execSize (s : State) : Host.Outcome State Fault Refusal :=
  .next (respond .receiver (.count s.size) s)

/-- FRAME: the eight bytes of the word arrive in wire order, one PUSH each (R44, R172). Whether they make a valid frame
is for the decoder to find out (R65). DESIGN CHOICE (log entry 5), unsafe. -/
def execFrame (soil light : Half) (checksum : Byte) (s : State) : Host.Outcome State Fault Refusal :=
  .next (pushAll (wireBytes soil light checksum) s)

end Sys2Proof.Machine
end

