-- ==== Sys2Proof/Machine/Checksum.lean ====
section
/-! DEFINITION. The Checksum Function and CKSUM (R80, R81). -/

namespace Sys2Proof.Machine

/-- The sum of all bytes modulo 256, for every finite sequence (R80, R82). -/
def cksum (s : List Byte) : Byte := BitVec.ofNat 8 (s.map BitVec.toNat).sum

/-- The accumulator loop of CKSUM: `acc = (acc + s[i]) mod 256`, in order (R81). -/
def cksumLoop : List Byte → Byte → Byte
  | [], acc => acc
  | b :: rest, acc => cksumLoop rest (acc + b)

/-- CKSUM (R81): `res_byte` is the checksum; no state is read or written. -/
def execCksum (side : Side) (bytes : List Byte) (s : State) : Host.Outcome State Fault Refusal :=
  .next (respond side (.byte (cksumLoop bytes 0)) s)

end Sys2Proof.Machine
end

