-- ==== Sys2Proof/Machine/FrameDecoder.lean ====
section
/-! DEFINITION. The Frame Decoder: one iteration through its control states, DSTEP and DECODE (R110 to R128). -/

namespace Sys2Proof.Machine

/-- The control states of the decoder (R27, R111). They are transient: an iteration is a walk through them that starts in
`seekHeader`, and none outlives it. -/
inductive DState where
  | seekHeader
  | haveHeaderNeedLen
  | haveLenNeedBody
  | frameAccepted
  | frameRejected (kind : ErrorKind)
  deriving DecidableEq, Repr

/-- Step 10: the reading in the first eight bytes (R119). -/
def fromAccepted (q : List Byte) : IterResult := .accept (frameReading q)

/-- The discard of steps 4, 7, 8, 9: the byte at the front is the header (R111, R113). -/
def fromRejected (kind : ErrorKind) : IterResult := .discard kind header

/-- Steps 5 to 9 (R117, R118): wait for the claimed length, then tail, checksum, width, first failure wins. -/
def fromNeedBody (q : List Byte) : IterResult :=
  let lenByte := byteOf q 1
  let f := frameLen lenByte
  if q.length < f then .needBody f
  else
    let fr := q.take f
    if byteOf fr (f - 1) ≠ tail then fromRejected .tailMismatch
    else if cksum ((fr.drop 1).take (f - 3)) ≠ byteOf fr (f - 2) then fromRejected .checksumMismatch
    else if lenByte ≠ payloadWidth then fromRejected .unexpectedPayloadWidth
    else fromAccepted fr

/-- Steps 3 and 4 (R114, R116). -/
def fromNeedLen (maxFrame : Nat) (q : List Byte) : IterResult :=
  if q.length < 3 then .needLen
  else if byteOf q 1 = 0 ∨ maxFrame < frameLen (byteOf q 1) then fromRejected .invalidLength
  else fromNeedBody q

/-- Steps 1 and 2 (R115). -/
def fromSeek (maxFrame : Nat) (q : List Byte) : IterResult :=
  if q.length = 0 then .idle
  else if byteOf q 0 ≠ header then .discard .noiseByte (byteOf q 0)
  else fromNeedLen maxFrame q

/-- How an iteration that is in a control state ends (R111, R112). -/
def resultFrom (maxFrame : Nat) (q : List Byte) : DState → IterResult
  | .seekHeader => fromSeek maxFrame q
  | .haveHeaderNeedLen => fromNeedLen maxFrame q
  | .haveLenNeedBody => fromNeedBody q
  | .frameAccepted => fromAccepted q
  | .frameRejected kind => fromRejected kind

/-- The result of an iteration on the current buffer: every iteration begins in SEEK_HEADER (R27, R113). -/
def iterationOf (s : State) : IterResult := resultFrom s.config.maxFrame s.q .seekHeader

/-- The one event of an iteration (R113, R158): `ev_byte` is the length byte for NEED_BODY, the discarded byte for an
error, 0 otherwise. -/
def eventOf (q : List Byte) : IterResult → Event
  | .idle => { code := .idle, byte := 0 }
  | .needLen => { code := .needLen, byte := 0 }
  | .needBody _ => { code := .needBody, byte := byteOf q 1 }
  | .discard kind byte => { code := .error kind, byte := byte }
  | .accept _ => { code := .accept, byte := 0 }

/-- What an iteration does (R113): nothing but its event when it stops, one byte removed on an error, eight bytes removed
and a reading emitted when it accepts. -/
def applyIteration (r : IterResult) (s : State) : State :=
  match r with
  | .idle => emitEvent (eventOf s.q r) s
  | .needLen => emitEvent (eventOf s.q r) s
  | .needBody _ => emitEvent (eventOf s.q r) s
  | .discard kind byte => recoverError kind byte s
  | .accept reading => emitEvent (eventOf s.q r) (emitReading reading (dropFront frameBytes s))

/-- One iteration of the decoder's algorithm, atomic (R49, R113). -/
def iterate (s : State) : State := applyIteration (iterationOf s) s

/-- Where a DECODE ends: the state, the number of readings, the arrivals that had not yet fallen. -/
structure DecodeEnd where
  state : State
  readings : Nat
  leftover : List (List Byte)
  deriving DecidableEq, Repr

/-- The loop of DECODE (R124): iterations until one stops, the next entry of `arrivals` pushed after each that does not
(R49). `fuel` bounds the iterations; `decodeFuel` is always enough (R125). -/
def decodeLoop : Nat → List (List Byte) → Nat → State → DecodeEnd
  | 0, arrivals, n, s => { state := s, readings := n, leftover := arrivals }
  | fuel + 1, arrivals, n, s =>
    let r := iterationOf s
    let s' := applyIteration r s
    let n' := n + r.readings.length
    if r.stops then { state := s', readings := n', leftover := arrivals }
    else
      match arrivals with
      | [] => decodeLoop fuel [] n' s'
      | a :: later => decodeLoop fuel later n' (pushAll a s')

/-- At most one iteration per byte buffered or arriving, and one more that stops (R125). -/
def decodeFuel (arrivals : List (List Byte)) (s : State) : Nat := s.count + arrivals.flatten.length + 1

/-- DSTEP (R113): one iteration; its five-way result is the response (D13). -/
def execDstep (s : State) : Host.Outcome State Fault Refusal :=
  .next (respond .receiver (.iteration (iterationOf s)) (iterate s))

/-- DECODE (R124): the loop; `res_count` is the number of readings. Arrivals scheduled after the iteration that stops are
later transactions. -/
def execDecode (arrivals : List (List Byte)) (s : State) : Host.Outcome State Fault Refusal :=
  let e := decodeLoop (decodeFuel arrivals s) arrivals 0 s
  .next (respond .receiver (.count e.readings) (arriveNext e.leftover.flatten e.state))

end Sys2Proof.Machine
end

