-- ==== Sys2Proof/Machine/FrameEncoder.lean ====
section
/-! DEFINITION. The Frame Encoder: ENCODE and SEND (R140, R143), and validity of a frame (R65). -/

namespace Sys2Proof.Machine

/-- The checksum field: over the length byte and the payload (R64). -/
def frameChecksum (r : Reading) : Byte :=
  cksum [payloadWidth, hiByte r.soilMoisture, loByte r.soilMoisture, hiByte r.lightIntensity, loByte r.lightIntensity]

/-- `EF`, the 8 bytes of ENCODE (R140). -/
def encodeFrame (r : Reading) : List Byte := wireBytes r.soilMoisture r.lightIntensity (frameChecksum r)

/-- A valid frame (R65). -/
def validFrame (f : List Byte) : Bool :=
  decide (f.length = frameBytes ∧ byteOf f 0 = header ∧ byteOf f 1 = payloadWidth ∧ byteOf f 7 = tail ∧
    byteOf f 6 = cksum [byteOf f 1, byteOf f 2, byteOf f 3, byteOf f 4, byteOf f 5])

/-- ENCODE (R140): the frame on `res_frame`; cannot fail, writes no state. -/
def execEncode (reading : Reading) (s : State) : Host.Outcome State Fault Refusal :=
  .next (respond .sender (.frame (packFrame (encodeFrame reading))) s)

/-- SEND (R143): ENCODE, then the eight bytes to the byte transport, in order. -/
def execSend (reading : Reading) (s : State) : Host.Outcome State Fault Refusal :=
  .next (respond .sender .done (sendBytes (encodeFrame reading) s))

end Sys2Proof.Machine
end

