-- ==== Sys2Proof/Machine/Dispatch.lean ====
section
/-! DEFINITION. One arm per instruction. -/

namespace Sys2Proof.Machine

def exec (i : Instr) (s : State) : Host.Outcome State Fault Refusal :=
  match i with
  | .reset side => Sys2Proof.Machine.execReset side s
  | .cksum side bytes => Sys2Proof.Machine.execCksum side bytes s
  | .push port byte => Sys2Proof.Machine.execPush port byte s
  | .peek offset => Sys2Proof.Machine.execPeek offset s
  | .pop => Sys2Proof.Machine.execPop s
  | .size => Sys2Proof.Machine.execSize s
  | .dstep => Sys2Proof.Machine.execDstep s
  | .decode arrivals => Sys2Proof.Machine.execDecode arrivals s
  | .encode reading => Sys2Proof.Machine.execEncode reading s
  | .send reading => Sys2Proof.Machine.execSend reading s
  | .frame soil light checksum => Sys2Proof.Machine.execFrame soil light checksum s

end Sys2Proof.Machine
end

