-- ==== Sys2Proof/Machine/Step.lean ====
section
/-! DEFINITION. One step: the next transaction, decoded and run (R49, R50). -/

namespace Sys2Proof.Machine

/-- One atomic operation. A state whose parameters are outside R6 is no configuration of the model (U12); with nothing
pending the core does nothing (R164, R175; log entry 8); a transaction without a meaning is refused by name (U5, U6, U9). -/
def step (s : State) : Host.Outcome State Fault Refusal :=
  if s.config.Admissible then
    match takeTransaction s with
    | none => .next s
    | some (t, s') =>
      match decode t with
      | .ok i => exec i s'
      | .error e => .refused (.undecodable e)
  else .refused .inadmissibleConfig

/-- The state with a table row's word (operand words zero) as the next transaction on its port (log entries 6, 7). -/
def State.withFetchWord (s : State) (nbits w : Nat) : State :=
  { s with input := tableTransaction nbits w :: s.input }

end Sys2Proof.Machine
end

