-- ==== Sys2Proof/Safety.lean ====
section
/-! DEFINITION. The terms claims use: what a run shows, the machine invariant, and what a safe state is. -/

namespace Sys2Proof.Machine

/-- Everything about a state but the ring registers behind `Q`: what a run can show (R173), with the constants of the
instance and the transactions still to come. Two states with one view differ at most in `MEM`, `HEAD` and `COUNT`. -/
structure View where
  config : Config
  q : List Byte
  tx : List Byte
  rd : List Reading
  ev : List Event
  rxRes : List Response
  txRes : List Response
  input : List Transaction
  deriving DecidableEq, Repr

/-- The view of a state; `Q` is computed from the ring (R24). -/
def State.view (s : State) : View :=
  { config := s.config, q := s.q, tx := s.tx, rd := s.rd, ev := s.ev, rxRes := s.rxRes, txRes := s.txRes,
    input := s.input }

/-- The invariant: admissible parameters (R6), HEAD and COUNT in the ranges of R24, only cells of the storage listed, in
canonical form, and every cell of the occupied window written. -/
abbrev State.Inv (s : State) : Prop :=
  s.config.Admissible ∧ s.head < s.config.capacity ∧ s.count ≤ s.config.capacity ∧ s.mem.wf ∧
    (∀ c ∈ s.mem, c.1 < s.config.capacity) ∧ ∀ i < s.count, (s.mem.read? (s.cellIndex i)).isSome = true

/-- Cell `a` is one of the next `n` cells that PUSHes write, computed from the ring registers: the i-th byte pushed goes
to cell `(HEAD + COUNT + i) mod CAPACITY`, whether or not it evicts one (R25). -/
abbrev State.storesTo (s : State) (n a : Nat) : Prop := ∃ i < n, a = (s.head + s.count + i) % s.config.capacity

/-- The transaction stands for an instruction. -/
def hasMeaning (t : Transaction) : Bool :=
  match decode t with
  | .ok _ => true
  | .error _ => false

/-- A safe state: the invariant holds and every pending transaction is one the spec gives a meaning. -/
abbrev State.Safe (s : State) : Prop := s.Inv ∧ ∀ t ∈ s.input, hasMeaning t = true

/-- `n` steps, stopping at the first fault or refusal (R173): what `Host.Core.run` does on `Sys2Proof.core`. -/
def run : Nat → State → Host.Outcome State Fault Refusal
  | 0, s => .next s
  | n + 1, s =>
    match step s with
    | .next s' => run n s'
    | .fault r => .fault r
    | .refused r => .refused r

/-- The event is one that announces a reading (R158). -/
def Event.isAccept (e : Event) : Bool := decide (e.code = .accept)

/-- The event of a stopping iteration: IDLE, NEED_LEN, NEED_BODY (R113, R158). -/
def Event.isStop (e : Event) : Bool := decide (e.code = .idle ∨ e.code = .needLen ∨ e.code = .needBody)

/-- The `NoiseByte` event of a byte (R153). -/
def noiseEvent (b : Byte) : Event := { code := .error .noiseByte, byte := b }

/-- `(ev_code, ev_byte) = (0x3, 0x00)`: ACCEPT (R158). -/
def acceptEvent : Event := { code := .accept, byte := 0 }

/-- `(ev_code, ev_byte) = (0x0, 0x00)`: IDLE (R158). -/
def idleEvent : Event := { code := .idle, byte := 0 }

/-- `Q[0]` is the header and the claimed length `L = Q[1]` passes step 4 (R114, R116). -/
abbrev Candidate (maxFrame : Nat) (q : List Byte) (len : Byte) : Prop :=
  3 ≤ q.length ∧ q[0]? = some 0xAA ∧ q[1]? = some len ∧ len ≠ 0 ∧ len.toNat + 4 ≤ maxFrame

/-- What is known on entry to a control state (R111). -/
def DState.known (maxFrame : Nat) (q : List Byte) : DState → Prop
  | .seekHeader => True
  | .haveHeaderNeedLen => 1 ≤ q.length ∧ q[0]? = some 0xAA
  | .haveLenNeedBody => ∃ len, Candidate maxFrame q len
  | .frameAccepted => validFrame (q.take 8) = true
  | .frameRejected _ => q[0]? = some 0xAA ∧ validFrame (q.take 8) = false

/-- The instruction acts on the sender instance (R70, R71). -/
def onSender : Instr → Bool
  | .reset .sender => true
  | .cksum .sender _ => true
  | .encode _ => true
  | .send _ => true
  | .reset .receiver => false
  | .cksum .receiver _ => false
  | .push _ _ => false
  | .peek _ => false
  | .pop => false
  | .size => false
  | .dstep => false
  | .decode _ => false
  | .frame _ _ _ => false

end Sys2Proof.Machine
end

