-- ==== Sys2Proof/Certificates/Slice0/Obligations.lean ====
section
/-! DEFINITION. The statements for the provers, from the numbered rules of spec/. -/

open Sys2Proof Sys2Proof.Machine

/-! ## Encodings -/

/-- Words written out from the spec's own vectors (95_test_vectors.md) decode to the operations they stand for. -/
def Obligations.SpecWordsDecode : Prop :=
  decode (.rxOp .polling 0x0FFFF [] []) = .ok (.reset .receiver) ∧
  decode (.rxOp .polling 0x10002 [0xFF, 0x01] []) = .ok (.cksum .receiver [0xFF, 0x01]) ∧
  decode (.rxOp .polling 0x2FFFF [] []) = .ok (.push .op 0xFF) ∧
  decode (.rxOp .polling 0x30006 [] []) = .ok (.peek 6) ∧
  decode (.rxOp .polling 0x40000 [] []) = .ok .pop ∧
  decode (.rxOp .polling 0x50000 [] []) = .ok .size ∧
  decode (.rxOp .polling 0x60000 [] []) = .ok .dstep ∧
  decode (.rxOp .polling 0x70000 [] [[0x55]]) = .ok (.decode [[0x55]]) ∧
  decode (.txOp 0x80000 [] ⟨0x003C, 0x0708⟩) = .ok (.encode ⟨60, 1800⟩) ∧
  decode (.txOp 0x90000 [] ⟨0x003C, 0x0708⟩) = .ok (.send ⟨60, 1800⟩) ∧
  decode (.wire 0xAA04003C07084F55) = .ok (.frame 60 1800 0x4F)

/-- Every well-formed instruction is what the decoder reads from its encoding, with every operand at every value. -/
def Obligations.DecodeOfEncodeIsTheInstruction : Prop :=
  ∀ i : Instr, i.wellFormed = true → decode (encode i) = .ok i

/-- R70, R81, R82: whatever the decoder reads is well-formed; in particular no CKSUM with more operand bytes than its 8-bit
length field can name. -/
def Obligations.DecodedInstructionsAreWellFormed : Prop :=
  ∀ (t : Transaction) (i : Instr), decode t = .ok i → i.wellFormed = true

/-- R71 (the codes are the spec's decision D3): which operation each code selects on each port, for every value of the bits it ignores; unassigned codes and
operations an instance lacks are refused (D20). -/
def Obligations.OperationCodesSelectTheOperations : Prop :=
  (∀ (arg : Half) (d : List Byte) (during : List (List Byte)) (r : Reading),
    decode (.rxOp .polling (makeCmd 0x0 arg) d []) = .ok (.reset .receiver) ∧
    decode (.txOp (makeCmd 0x0 arg) d r) = .ok (.reset .sender) ∧
    decode (.rxOp .polling (makeCmd 0x3 arg) d []) = .ok (.peek arg) ∧
    decode (.rxOp .polling (makeCmd 0x4 arg) d []) = .ok .pop ∧
    decode (.rxOp .polling (makeCmd 0x5 arg) d []) = .ok .size ∧
    decode (.rxOp .polling (makeCmd 0x6 arg) d []) = .ok .dstep ∧
    decode (.rxOp .polling (makeCmd 0x7 arg) d during) = .ok (.decode during) ∧
    decode (.txOp (makeCmd 0x8 arg) d r) = .ok (.encode r) ∧
    decode (.txOp (makeCmd 0x9 arg) d r) = .ok (.send r)) ∧
  (∀ (ignored b : Byte) (d : List Byte), decode (.rxOp .polling (makeCmd 0x2 (ignored ++ b)) d []) = .ok (.push .op b)) ∧
  (∀ (ignored n : Byte) (d : List Byte) (r : Reading), d.length = n.toNat →
    decode (.rxOp .polling (makeCmd 0x1 (ignored ++ n)) d []) = .ok (.cksum .receiver d) ∧
    decode (.txOp (makeCmd 0x1 (ignored ++ n)) d r) = .ok (.cksum .sender d)) ∧
  (∀ (op : BitVec 4) (arg : Half) (c : Context) (d : List Byte) (during : List (List Byte)) (r : Reading),
    (10 ≤ op.toNat → decode (.rxOp c (makeCmd op arg) d during) = .error .unassignedOpCode ∧
      decode (.txOp (makeCmd op arg) d r) = .error .unassignedOpCode) ∧
    (op = 8 ∨ op = 9 → decode (.rxOp c (makeCmd op arg) d during) = .error .wrongInstance) ∧
    (2 ≤ op.toNat ∧ op.toNat ≤ 7 → decode (.txOp (makeCmd op arg) d r) = .error .wrongInstance))

/-- A step refuses by name a transaction the decoder gives no meaning, whatever the state. -/
def Obligations.StepRefusesWhatDoesNotDecode : Prop :=
  ∀ (s : State) (t : Transaction) (rest : List Transaction) (e : DecodeError),
    s.config.Admissible → s.input = t :: rest → decode t = .error e → step s = .refused (.undecodable e)

/-- R162, D22: PUSH is the sole operation of the arrival context: what decodes in it is a PUSH, and every operation that
decodes in the polling context and is no PUSH is refused in the arrival context under its own name. -/
def Obligations.ArrivalContextOnlyPushes : Prop :=
  (∀ b : Byte, decode (.arr b) = .ok (.push .arr b)) ∧
  (∀ (cmd : Cmd) (d : List Byte) (during : List (List Byte)) (i : Instr),
    decode (.rxOp .arrival cmd d during) = .ok i → ∃ b, i = .push .op b) ∧
  (∀ (cmd : Cmd) (d : List Byte) (during : List (List Byte)) (i : Instr),
    decode (.rxOp .polling cmd d during) = .ok i → (∀ b, i ≠ .push .op b) →
      decode (.rxOp .arrival cmd d during) = .error .arrivalContext)

/-- R49, R174, U5 (decision D12): arrivals fall between the DSTEPs of a DECODE and inside no other operation. -/
def Obligations.NoArrivalInsideAnAtomicOperation : Prop :=
  ∀ (c : Context) (cmd : Cmd) (d : List Byte) (during : List (List Byte)) (i : Instr),
    decode (.rxOp c cmd d during) = .ok i → during ≠ [] → i = .decode during

/-! ## Steps, reset, invariants -/

/-- The step takes the next transaction and runs the instruction it decodes to, in the state with it taken. -/
def Obligations.StepRunsTheDecodedInstruction : Prop :=
  ∀ (s : State) (t : Transaction) (rest : List Transaction) (i : Instr),
    s.config.Admissible → s.input = t :: rest → decode t = .ok i → step s = exec i { s with input := rest }

/-- R175, R164: an idle core does nothing. The step that stutters is the model's choice (log entry 8). -/
def Obligations.StepWithNothingPendingStutters : Prop :=
  ∀ s : State, s.config.Admissible → s.input = [] → step s = .next s

/-- R6, D24: a configuration outside the bounds is refused at every step. -/
def Obligations.InadmissibleConfigurationIsRefused : Prop :=
  ∀ s : State, ¬ s.config.Admissible → step s = .refused .inadmissibleConfig

/-- R33: after reset the buffer is empty, HEAD and COUNT are 0, nothing has been emitted; SIZE returns 0, PEEK fails at
every offset and POP fails. (Empty outputs and an empty buffer are the spec's decision D9.) -/
def Obligations.ResetStateIsEmpty : Prop :=
  State.reset.Inv ∧ State.reset.q = [] ∧ State.reset.head = 0 ∧ State.reset.count = 0 ∧
  State.reset.tx = [] ∧ State.reset.rd = [] ∧ State.reset.ev = [] ∧
  exec .size State.reset = .next { State.reset with rxRes := [.count 0] } ∧
  (∀ offset, exec (.peek offset) State.reset = .next { State.reset with rxRes := [.outOfRange] }) ∧
  exec .pop State.reset = .next { State.reset with rxRes := [.empty] }

/-- The invariant of the ring (R6, R21, R24) is kept by every step, from every state that meets it. -/
def Obligations.StepKeepsTheInvariant : Prop :=
  ∀ s t : State, s.Inv → step s = .next t → t.Inv

/-- From a safe state a step always answers a next state, and that state is safe: the core never halts (R161, R173). -/
def Obligations.SafeStatesStepToSafeStates : Prop :=
  ∀ s : State, s.Safe → ∃ t, step s = .next t ∧ t.Safe

/-- R22: no operation changes the construction parameters. -/
def Obligations.ParametersNeverChange : Prop :=
  ∀ s t : State, step s = .next t → t.config = s.config

/-- R10, R113: the output streams are only appended to, every reading comes with exactly one ACCEPT event, and no other
event announces one. That a RESET keeps the streams already made is the model's choice (log entry 10; R33, R170, D2, D9). -/
def Obligations.OutputsOnlyGrow : Prop :=
  ∀ s t : State, step s = .next t →
    ∃ tx rd ev rxRes txRes, t.tx = s.tx ++ tx ∧ t.rd = s.rd ++ rd ∧ t.ev = s.ev ++ ev ∧
      t.rxRes = s.rxRes ++ rxRes ∧ t.txRes = s.txRes ++ txRes ∧ ev.countP Event.isAccept = rd.length

/-- R10: nothing in the core reads an output stream. Two states that differ in their outputs alone take the same
instruction to states with the same ring and the same transactions, and append the same to every stream.
That a RESET keeps the streams already made is the model's choice (log entry 10; R33, R170, D2, D9). -/
def Obligations.OutputsInfluenceNothing : Prop :=
  ∀ (i : Instr) (s s' : State), s'.config = s.config → s'.mem = s.mem → s'.head = s.head → s'.count = s.count →
    s'.input = s.input →
    ∃ t t' tx rd ev rxRes txRes, exec i s = .next t ∧ exec i s' = .next t' ∧
      t'.mem = t.mem ∧ t'.head = t.head ∧ t'.count = t.count ∧ t'.input = t.input ∧
      t.tx = s.tx ++ tx ∧ t'.tx = s'.tx ++ tx ∧ t.rd = s.rd ++ rd ∧ t'.rd = s'.rd ++ rd ∧
      t.ev = s.ev ++ ev ∧ t'.ev = s'.ev ++ ev ∧ t.rxRes = s.rxRes ++ rxRes ∧ t'.rxRes = s'.rxRes ++ rxRes ∧
      t.txRes = s.txRes ++ txRes ∧ t'.txRes = s'.txRes ++ txRes

/-- R24: no operation can observe anything of the ring except through `Q`. Two states with one view, whatever their MEM,
HEAD and COUNT (unwritten cells and cells outside the window among them), run every instruction to states with one view. -/
def Obligations.RingIsInvisible : Prop :=
  ∀ (i : Instr) (s s' : State), s.Inv → s'.Inv → s.view = s'.view →
    ∃ t t', exec i s = .next t ∧ exec i s' = .next t' ∧ t.view = t'.view

/-- R20, R50: two instances share nothing. An operation on the sender leaves all the receiver has, one on the receiver
leaves all the sender has. -/
def Obligations.InstancesShareNothing : Prop :=
  ∀ (i : Instr) (s t : State), exec i s = .next t →
    (onSender i = true → t.mem = s.mem ∧ t.head = s.head ∧ t.count = s.count ∧ t.rd = s.rd ∧ t.ev = s.ev ∧
      t.rxRes = s.rxRes ∧ t.input = s.input) ∧
    (onSender i = false → t.tx = s.tx ∧ t.txRes = s.txRes)

/-- R50 (b), (c): bytes leave the front in the order they were pushed. Every instruction leaves a suffix of the old content
followed by the bytes it pushed. -/
def Obligations.BytesLeaveInTheOrderPushed : Prop :=
  ∀ (i : Instr) (s : State), s.Inv →
    ∃ t k pushed, exec i s = .next t ∧ t.q = (s.q ++ pushed).drop k ∧
      (match i with
        | .push _ b => pushed = [b]
        | .frame soil light c => pushed = wireBytes soil light c
        | .decode arrivals => ∃ n, pushed = (arrivals.take n).flatten
        | _ => pushed = [])

/-! ## RESET and the Byte Stream Buffer -/

/-- R170 (decisions D9, D23): RESET empties a receiver's buffer and writes no cell; a sender has no state. That outputs
already made stay is the model's choice (log entry 10). -/
def Obligations.ResetEmptiesTheBuffer : Prop :=
  ∀ s : State,
    (∃ t, exec (.reset .receiver) s = .next t ∧ t.view = { s.view with q := [], rxRes := s.rxRes ++ [.done] } ∧
      t.head = 0 ∧ t.count = 0 ∧ ∀ a, t.mem.read? a = s.mem.read? a) ∧
    exec (.reset .sender) s = .next { s with txRes := s.txRes ++ [.done] }

/-- R90: PUSH on either port appends the byte, or evicts the oldest when the buffer is full; it never fails. Its encodings
select it whatever the ignored bits. One cell is written, the one `pushCell` computes, and nothing else changes but, on
the operation port, the response. The written cell is that of the ring realisation (R25, decision D8); the recorded
response of status OK is the form of log entry 11 (R150, decision D11). -/
def Obligations.PushAppendsOrEvicts : Prop :=
  ∀ (s : State) (port : PushPort) (b : Byte), s.Inv →
    (∀ ignored : Byte, decode (.rxOp .polling (makeCmd 0x2 (ignored ++ b)) [] []) = .ok (.push .op b)) ∧
    decode (.arr b) = .ok (.push .arr b) ∧
    ∃ t, exec (.push port b) s = .next t ∧
      t.view = { s.view with
        q := if s.q.length < s.config.capacity then s.q ++ [b] else s.q.drop 1 ++ [b]
        rxRes := match port with
          | .arr => s.rxRes
          | .op => s.rxRes ++ [.done] } ∧
      Response.status .done = 0 ∧
      t.mem.read? (pushCell s) = some b ∧ ∀ a, a ≠ pushCell s → t.mem.read? a = s.mem.read? a

/-- R25 (the ring is decision D8): the ring registers under PUSH and POP: which cell is written, where HEAD and COUNT go. -/
def Obligations.RingRegistersFollowPushAndPop : Prop :=
  ∀ (s : State) (b : Byte), s.Inv →
    (s.count < s.config.capacity → ∃ t, exec (.push .arr b) s = .next t ∧
      t.mem.read? ((s.head + s.count) % s.config.capacity) = some b ∧ t.head = s.head ∧ t.count = s.count + 1) ∧
    (s.count = s.config.capacity → ∃ t, exec (.push .arr b) s = .next t ∧
      t.mem.read? s.head = some b ∧ t.head = (s.head + 1) % s.config.capacity ∧ t.count = s.config.capacity) ∧
    (1 ≤ s.count → ∃ t, exec .pop s = .next t ∧ t.head = (s.head + 1) % s.config.capacity ∧ t.count = s.count - 1 ∧
      ∀ a, t.mem.read? a = s.mem.read? a)

/-- R91: PEEK returns the byte at the offset and changes nothing, or fails with `OutOfRange` (status 1, no byte) exactly
when the offset is not below `|Q|`, and changes nothing. That a failure carries no byte is decision D10 (log entry 11). -/
def Obligations.PeekReturnsTheByteOrFails : Prop :=
  ∀ (s : State) (offset : Half),
    decode (.rxOp .polling (makeCmd 0x3 offset) [] []) = .ok (.peek offset) ∧
    (∀ b, s.q[offset.toNat]? = some b → exec (.peek offset) s = .next { s with rxRes := s.rxRes ++ [.byte b] }) ∧
    (s.q.length ≤ offset.toNat → exec (.peek offset) s = .next { s with rxRes := s.rxRes ++ [.outOfRange] }) ∧
    (∀ b, Response.status (.byte b) = 0 ∧ Response.resByte (.byte b) = some b) ∧
    Response.status .outOfRange = 1 ∧ Response.resByte .outOfRange = none

/-- R92: POP removes and returns the front byte, or fails with `Empty` (status 2, no byte) exactly on an empty buffer and
changes nothing (decision D10, log entry 11). No cell is written. -/
def Obligations.PopRemovesTheFrontOrFails : Prop :=
  ∀ (s : State), s.Inv →
    (∀ arg : Half, decode (.rxOp .polling (makeCmd 0x4 arg) [] []) = .ok .pop) ∧
    (∀ b rest, s.q = b :: rest → ∃ t, exec .pop s = .next t ∧
      t.view = { s.view with q := rest, rxRes := s.rxRes ++ [.byte b] } ∧ ∀ a, t.mem.read? a = s.mem.read? a) ∧
    (s.q = [] → exec .pop s = .next { s with rxRes := s.rxRes ++ [.empty] }) ∧
    Response.status .empty = 2 ∧ Response.resByte .empty = none

/-- R93: SIZE returns `|Q|`, which never exceeds the capacity and always fits the port, and changes nothing: 0 after reset,
`CAPACITY` when full and after any further PUSH. -/
def Obligations.SizeIsTheNumberOfBytes : Prop :=
  exec .size State.reset = .next { State.reset with rxRes := [.count 0] } ∧
  ∀ (s : State), s.Inv →
    (∀ arg : Half, decode (.rxOp .polling (makeCmd 0x5 arg) [] []) = .ok .size) ∧
    exec .size s = .next { s with rxRes := s.rxRes ++ [.count s.q.length] } ∧
    s.q.length ≤ s.config.capacity ∧
    Response.resCount (.count s.q.length) = some (BitVec.ofNat 16 s.q.length) ∧
    (BitVec.ofNat 16 s.q.length).toNat = s.q.length ∧
    (s.q.length = s.config.capacity → ∀ (b : Byte), ∃ t, exec (.push .arr b) s = .next t ∧
      exec .size t = .next { t with rxRes := t.rxRes ++ [.count s.config.capacity] })

/-- R94: pushing any bytes, in any number, leaves the last `min(|Q0| + m, CAPACITY)` bytes of `Q0 ++ p`. -/
def Obligations.OverflowKeepsTheNewest : Prop :=
  ∀ (s : State) (p : List Byte) (rest : List Transaction), s.Inv → s.input = p.map Transaction.arr ++ rest →
    ∃ t : State, run p.length s = .next t ∧
      t.view = { s.view with
        q := (s.q ++ p).drop ((s.q ++ p).length - min (s.q.length + p.length) s.config.capacity)
        input := rest } ∧
      ∀ a, ¬ s.storesTo p.length a → t.mem.read? a = s.mem.read? a

/-- R23: size, empty and full are values of `Q`, none of them stored. -/
def Obligations.PredicatesAreDerivedFromTheContent : Prop :=
  ∀ s : State, s.size = s.q.length ∧ (s.isEmpty = true ↔ s.q = []) ∧
    (s.isFull = true ↔ s.q.length = s.config.capacity)

/-- R150 (the numbers are decision D11), R151, R152: status 1 is answered by PEEK beyond the content alone, status 2 by POP on an empty buffer alone,
status 3 by nothing, and no response at all but the operation's own one is made. -/
def Obligations.FailuresComeFromPeekAndPop : Prop :=
  ∀ (i : Instr) (s : State), ∃ t rx tx, exec i s = .next t ∧ t.rxRes = s.rxRes ++ rx ∧ t.txRes = s.txRes ++ tx ∧
    rx.length + tx.length ≤ 1 ∧
    ∀ p ∈ rx ++ tx,
      (p.status = 1 ↔ ∃ offset, i = .peek offset ∧ s.q.length ≤ offset.toNat) ∧
      (p.status = 2 ↔ i = .pop ∧ s.q = []) ∧ p.status ≠ 3

/-! ## The Checksum Function -/

/-- R80, R81: CKSUM on either instance answers the sum of its operand bytes modulo 256 and changes nothing else; it cannot
fail, for any length the port can carry. -/
def Obligations.CksumIsTheSumModulo256 : Prop :=
  ∀ (s : State) (ignored n : Byte) (bytes : List Byte), bytes.length = n.toNat →
    decode (.rxOp .polling (makeCmd 0x1 (ignored ++ n)) bytes []) = .ok (.cksum .receiver bytes) ∧
    (∀ r, decode (.txOp (makeCmd 0x1 (ignored ++ n)) bytes r) = .ok (.cksum .sender bytes)) ∧
    ∃ c : Byte, c.toNat = (bytes.map BitVec.toNat).sum % 256 ∧
      exec (.cksum .receiver bytes) s = .next { s with rxRes := s.rxRes ++ [.byte c] } ∧
      exec (.cksum .sender bytes) s = .next { s with txRes := s.txRes ++ [.byte c] } ∧
      Response.status (.byte c) = 0

/-- R83 (a), (b), (f): the checksum of a concatenation, of a permutation, of zeros added. -/
def Obligations.ChecksumIgnoresOrderAndZeros : Prop :=
  (∀ s t : List Byte, cksum (s ++ t) = cksum s + cksum t) ∧
  (∀ s t : List Byte, s.Perm t → cksum s = cksum t) ∧
  (∀ (s t : List Byte) (n : Nat), cksum (s ++ List.replicate n 0 ++ t) = cksum (s ++ t))

/-- R83 (d): a corruption confined to one covered byte is always detected. -/
def Obligations.ChecksumDetectsOneCorruptedByte : Prop :=
  ∀ (s t : List Byte) (a b : Byte), a ≠ b → cksum (s ++ a :: t) ≠ cksum (s ++ b :: t)

/-! ## The Frame Encoder and the frame on the wire -/

/-- R140: ENCODE answers the eight bytes of the layout, each in its place of `res_frame`, for every reading, and changes
nothing else. -/
def Obligations.EncodeBuildsTheFrame : Prop :=
  ∀ (s : State) (r : Reading),
    (∀ arg : Half, decode (.txOp (makeCmd 0x8 arg) [] r) = .ok (.encode r)) ∧
    ∃ w : FrameWord, exec (.encode r) s = .next { s with txRes := s.txRes ++ [.frame w] } ∧
      Response.resFrame (.frame w) = some w ∧
      w.extractLsb' 56 8 = 0xAA#8 ∧ w.extractLsb' 48 8 = 0x04#8 ∧
      w.extractLsb' 40 8 = r.soilMoisture.extractLsb' 8 8 ∧ w.extractLsb' 32 8 = r.soilMoisture.extractLsb' 0 8 ∧
      w.extractLsb' 24 8 = r.lightIntensity.extractLsb' 8 8 ∧ w.extractLsb' 16 8 = r.lightIntensity.extractLsb' 0 8 ∧
      (w.extractLsb' 8 8).toNat =
        (4 + r.soilMoisture.toNat / 256 + r.soilMoisture.toNat % 256 + r.lightIntensity.toNat / 256 +
          r.lightIntensity.toNat % 256) % 256 ∧
      w.extractLsb' 0 8 = 0x55#8

/-- R141, R65: encoding is injective and its image is exactly the valid frames; every valid frame is the encoding of the
reading in it. -/
def Obligations.EncodingIsABijectionOntoValidFrames : Prop :=
  (∀ r, validFrame (encodeFrame r) = true ∧ frameReading (encodeFrame r) = r) ∧
  (∀ r r', encodeFrame r = encodeFrame r' → r = r') ∧
  (∀ f, validFrame f = true → encodeFrame (frameReading f) = f)

/-- R143: SEND appends exactly the eight bytes ENCODE builds to `TX`, in order, and changes nothing else but its response.
That it is one atomic append is decision D16 (log entry 15). -/
def Obligations.SendTransmitsTheFrameInOrder : Prop :=
  ∀ (s : State) (r : Reading),
    (∀ arg : Half, decode (.txOp (makeCmd 0x9 arg) [] r) = .ok (.send r)) ∧
    exec (.send r) s = .next { s with tx := s.tx ++ encodeFrame r, txRes := s.txRes ++ [.done] } ∧
    exec (.encode r) s = .next { s with txRes := s.txRes ++ [.frame (packFrame (encodeFrame r))] } ∧
    (encodeFrame r).length = 8 ∧ (encodeFrame r)[0]? = some 0xAA ∧ (encodeFrame r)[7]? = some 0x55

/-- R44: a frame on the wire arrives as eight PUSHes in its own byte order, into the cells computed from the ring
registers; a PUSHSEQ of the same bytes does the same. That the table's FRAME row is an arrival is the model's choice
(log entry 5). -/
def Obligations.FrameArrivesByteByByte : Prop :=
  ∀ (s : State) (soil light : Half) (c : Byte), s.Inv →
    ∃ t : State, exec (.frame soil light c) s = .next t ∧
      t.view = { s.view with
        q := (s.q ++ [0xAA, 0x04, soil.extractLsb' 8 8, soil.extractLsb' 0 8, light.extractLsb' 8 8,
          light.extractLsb' 0 8, c, 0x55]).drop (s.q.length + 8 - s.config.capacity) } ∧
      (∀ a, ¬ s.storesTo 8 a → t.mem.read? a = s.mem.read? a) ∧
      run 8 { s with input := (wireBytes soil light c).map Transaction.arr ++ s.input } = .next t

/-! ## One decoder iteration -/

/-- Steps 1, 3, 5 (R113, R115, R116, R117): an iteration that stops or waits leaves everything but its event and its
result as it was.
The recorded response is the form of log entry 11 (R113, decision D13). -/
def Obligations.StoppingIterationsChangeNothing : Prop :=
  ∀ s : State,
    (s.q = [] → exec .dstep s =
      .next { s with ev := s.ev ++ [⟨.idle, 0⟩], rxRes := s.rxRes ++ [.iteration .idle] }) ∧
    (s.q[0]? = some 0xAA → s.q.length < 3 → exec .dstep s =
      .next { s with ev := s.ev ++ [⟨.needLen, 0⟩], rxRes := s.rxRes ++ [.iteration .needLen] }) ∧
    (∀ len, Candidate s.config.maxFrame s.q len → s.q.length < len.toNat + 4 → exec .dstep s =
      .next { s with
        ev := s.ev ++ [⟨.needBody, len⟩], rxRes := s.rxRes ++ [.iteration (.needBody (len.toNat + 4))] }) ∧
    EventCode.bits .idle = 0x0 ∧ EventCode.bits .needLen = 0x1 ∧ EventCode.bits .needBody = 0x2

/-- R153: a front byte that is not the header is discarded.
The recorded response is the form of log entry 11 (R113, decision D13). -/
def Obligations.NoiseByteIsDiscarded : Prop :=
  ∀ (s : State) (d : Byte) (rest : List Byte), s.Inv → s.q = d :: rest → d ≠ 0xAA →
    ∃ t, exec .dstep s = .next t ∧
      t.view = { s.view with
        q := rest
        ev := s.ev ++ [⟨.error .noiseByte, d⟩]
        rxRes := s.rxRes ++ [.iteration (.discard .noiseByte d)] } ∧
      EventCode.bits (.error .noiseByte) = 0x4 ∧ ∀ a, t.mem.read? a = s.mem.read? a

/-- R154: a zero or over-maximum length claim costs the header alone; the length byte stays. The frame length is a natural
number, never reduced modulo 256 (R114, decision D6).
The recorded response is the form of log entry 11 (R113, decision D13). -/
def Obligations.InvalidLengthDiscardsTheHeader : Prop :=
  ∀ (s : State) (len x : Byte) (rest : List Byte), s.Inv → s.q = 0xAA :: len :: x :: rest →
    (len = 0 ∨ s.config.maxFrame < len.toNat + 4) →
    ∃ t, exec .dstep s = .next t ∧
      t.view = { s.view with
        q := len :: x :: rest
        ev := s.ev ++ [⟨.error .invalidLength, 0xAA⟩]
        rxRes := s.rxRes ++ [.iteration (.discard .invalidLength 0xAA)] } ∧
      EventCode.bits (.error .invalidLength) = 0x5 ∧ ∀ a, t.mem.read? a = s.mem.read? a

/-- R155: a fully buffered candidate whose last byte is not the tail loses its header.
The recorded response is the form of log entry 11 (R113, decision D13). -/
def Obligations.TailMismatchDiscardsTheHeader : Prop :=
  ∀ (s : State) (len last : Byte), s.Inv → Candidate s.config.maxFrame s.q len →
    s.q[len.toNat + 3]? = some last → last ≠ 0x55 →
    ∃ t, exec .dstep s = .next t ∧
      t.view = { s.view with
        q := s.q.drop 1
        ev := s.ev ++ [⟨.error .tailMismatch, 0xAA⟩]
        rxRes := s.rxRes ++ [.iteration (.discard .tailMismatch 0xAA)] } ∧
      EventCode.bits (.error .tailMismatch) = 0x6 ∧ ∀ a, t.mem.read? a = s.mem.read? a

/-- R156: the tail is right and the sum of offsets 1 to `F - 3` differs from the byte at `F - 2`.
The recorded response is the form of log entry 11 (R113, decision D13). -/
def Obligations.ChecksumMismatchDiscardsTheHeader : Prop :=
  ∀ (s : State) (len c : Byte), s.Inv → Candidate s.config.maxFrame s.q len →
    s.q[len.toNat + 3]? = some 0x55 → s.q[len.toNat + 2]? = some c →
    (((s.q.drop 1).take (len.toNat + 1)).map BitVec.toNat).sum % 256 ≠ c.toNat →
    ∃ t, exec .dstep s = .next t ∧
      t.view = { s.view with
        q := s.q.drop 1
        ev := s.ev ++ [⟨.error .checksumMismatch, 0xAA⟩]
        rxRes := s.rxRes ++ [.iteration (.discard .checksumMismatch 0xAA)] } ∧
      EventCode.bits (.error .checksumMismatch) = 0x7 ∧ ∀ a, t.mem.read? a = s.mem.read? a

/-- R157: tail and checksum are right and the width is not 4.
The recorded response is the form of log entry 11 (R113, decision D13). -/
def Obligations.UnexpectedWidthDiscardsTheHeader : Prop :=
  ∀ (s : State) (len c : Byte), s.Inv → Candidate s.config.maxFrame s.q len →
    s.q[len.toNat + 3]? = some 0x55 → s.q[len.toNat + 2]? = some c →
    (((s.q.drop 1).take (len.toNat + 1)).map BitVec.toNat).sum % 256 = c.toNat → len ≠ 4 →
    ∃ t, exec .dstep s = .next t ∧
      t.view = { s.view with
        q := s.q.drop 1
        ev := s.ev ++ [⟨.error .unexpectedPayloadWidth, 0xAA⟩]
        rxRes := s.rxRes ++ [.iteration (.discard .unexpectedPayloadWidth 0xAA)] } ∧
      EventCode.bits (.error .unexpectedPayloadWidth) = 0x8 ∧ ∀ a, t.mem.read? a = s.mem.read? a

/-- R119, R63: a valid frame at the front is accepted: its reading is emitted once, big-endian and unchecked
(decision D7), and exactly its eight bytes leave. A frame nobody sent is no exception (R69).
The recorded response is the form of log entry 11 (R113, decision D13). -/
def Obligations.ValidFrameIsAccepted : Prop :=
  ∀ (s : State) (b2 b3 b4 b5 c : Byte) (rest : List Byte), s.Inv →
    s.q = 0xAA :: 0x04 :: b2 :: b3 :: b4 :: b5 :: c :: 0x55 :: rest →
    c.toNat = (4 + b2.toNat + b3.toNat + b4.toNat + b5.toNat) % 256 →
    ∃ t r, exec .dstep s = .next t ∧
      r.soilMoisture.toNat = b2.toNat * 256 + b3.toNat ∧ r.lightIntensity.toNat = b4.toNat * 256 + b5.toNat ∧
      t.view = { s.view with
        q := rest
        rd := s.rd ++ [r]
        ev := s.ev ++ [⟨.accept, 0⟩]
        rxRes := s.rxRes ++ [.iteration (.accept r)] } ∧
      EventCode.bits .accept = 0x3 ∧ ∀ a, t.mem.read? a = s.mem.read? a

/-- R120: an iteration either stops and leaves `Q` as it was, and stops in the same way when repeated, or discards exactly
one byte, or accepts and removes exactly eight; it reports exactly one event.
The recorded response is the form of log entry 11 (R113, decision D13). -/
def Obligations.EveryIterationStopsOrProgresses : Prop :=
  ∀ s : State, s.Inv → ∃ t r e, exec .dstep s = .next t ∧ t.rxRes = s.rxRes ++ [.iteration r] ∧ t.ev = s.ev ++ [e] ∧
    ((r.stops = true ∧ e.isStop = true ∧ t.q = s.q ∧
        ∃ t', exec .dstep t = .next t' ∧ t'.q = s.q ∧ t'.rxRes = t.rxRes ++ [.iteration r]) ∨
      (∃ kind d, r = .discard kind d ∧ e = ⟨.error kind, d⟩ ∧ s.q = d :: t.q) ∨
      (∃ f reading, r = .accept reading ∧ e = ⟨.accept, 0⟩ ∧ validFrame f = true ∧ s.q = f ++ t.q ∧
        t.rd = s.rd ++ [reading] ∧ encodeFrame reading = f))

/-- R52, R117, R120: a decision is final. An iteration that discards or accepts does the same when more bytes are buffered
behind, and those bytes stay behind what it leaves.
The recorded response is the form of log entry 11 (R113, decision D13). -/
def Obligations.LaterBytesDoNotChangeADecision : Prop :=
  ∀ (s u t : State) (p : List Byte) (r : IterResult), s.Inv → u.Inv → u.config = s.config → u.q = s.q ++ p →
    exec .dstep s = .next t → t.rxRes = s.rxRes ++ [.iteration r] → r.stops = false →
    ∃ v, exec .dstep u = .next v ∧ v.rxRes = u.rxRes ++ [.iteration r] ∧ v.q = t.q ++ p

/-- R111, R112: what is known on entry to a control state is enough to go on from it: the iteration, which begins in
SEEK_HEADER, ends as it would from that state. And an iteration that ends in a rejection or in an acceptance has
established what R111 says of that outcome. (Which steps belong to which state is the spec's decision D19.) -/
def Obligations.ControlStatesKnowEnough : Prop :=
  ∀ (maxFrame : Nat) (q : List Byte), 8 ≤ maxFrame →
    (∀ d : DState, (∀ kind, d ≠ .frameRejected kind) → d.known maxFrame q →
      resultFrom maxFrame q d = resultFrom maxFrame q .seekHeader) ∧
    (∀ kind, resultFrom maxFrame q .seekHeader = resultFrom maxFrame q (.frameRejected kind) →
      (DState.frameRejected kind).known maxFrame q) ∧
    (∀ r, resultFrom maxFrame q .seekHeader = .accept r → DState.frameAccepted.known maxFrame q)

/-! ## DECODE -/

/-- R124, R73, R49: DECODE is DSTEP repeated until one stops, with the arrivals that fall between two DSTEPs pushed there.
When the DSTEP stops, DECODE is that DSTEP, and arrivals scheduled after it are still to come; when it does not, DECODE
is the DSTEP, the PUSHes, and DECODE again, one more reading counted if the DSTEP accepted. That arrivals scheduled after the
DSTEP that stops become the next transactions is the model's choice (log entry 4, decision D12), the recorded response of
DSTEP the form of log entry 11 (D13). -/
def Obligations.DecodeRepeatsDstep : Prop :=
  ∀ (s u : State) (arrivals : List (List Byte)) (r : IterResult), s.Inv → exec .dstep s = .next u →
    u.rxRes = s.rxRes ++ [.iteration r] →
    (r.stops = true → exec (.decode arrivals) s =
      .next { u with
        rxRes := s.rxRes ++ [.count 0], input := arrivals.flatten.map Transaction.arr ++ s.input }) ∧
    (r.stops = false → ∃ (v : State) (n : Nat),
      exec (.decode arrivals.tail) (pushAll (arrivals.headD []) u) = .next v ∧
      v.rxRes = u.rxRes ++ [.count n] ∧
      exec (.decode arrivals) s = .next { v with rxRes := s.rxRes ++ [.count (n + r.readings.length)] })

/-- R125: DECODE ends, from every state and with any arrivals, with nothing decidable left: an empty buffer, a header that
waits for its length, or a candidate that waits for its body; at most `MAX_FRAME - 1` bytes stay. Its last event is a
stop, no earlier one is, and `res_count` is the number of readings. Without arrivals it makes at most `m + 1` iterations
and leaves a suffix of the content. -/
def Obligations.DecodeLeavesNothingDecidable : Prop :=
  ∀ (s : State) (arrivals : List (List Byte)), s.Inv →
    ∃ t rd ev e, exec (.decode arrivals) s = .next t ∧ t.Inv ∧
      t.rd = s.rd ++ rd ∧ t.ev = s.ev ++ ev ++ [e] ∧ t.rxRes = s.rxRes ++ [.count rd.length] ∧
      (∀ x ∈ ev, x.isStop = false) ∧
      ((t.q = [] ∧ e = ⟨.idle, 0⟩) ∨
        (t.q[0]? = some 0xAA ∧ t.q.length ≤ 2 ∧ e = ⟨.needLen, 0⟩) ∨
        ∃ len, Candidate t.config.maxFrame t.q len ∧ t.q.length < len.toNat + 4 ∧ e = ⟨.needBody, len⟩) ∧
      t.q.length + 1 ≤ t.config.maxFrame ∧
      (arrivals = [] → ev.length ≤ s.q.length ∧ t.q <:+ s.q)

/-- R125: a second DECODE with no PUSH in between changes nothing and reports the same single stop. -/
def Obligations.SecondDecodeChangesNothing : Prop :=
  ∀ (s t : State) (arrivals : List (List Byte)), s.Inv → exec (.decode arrivals) s = .next t →
    ∃ e, t.ev.getLast? = some e ∧
      exec (.decode []) t = .next { t with ev := t.ev ++ [e], rxRes := t.rxRes ++ [.count 0] }

/-- The frame of DECODE (R124, R25, R49): the sender's streams, the parameters, and every cell but those of the arrivals
that fell during it are unchanged; the arrivals that did not are the next transactions. -/
def Obligations.DecodeChangesOnlyTheBuffer : Prop :=
  ∀ (s : State) (arrivals : List (List Byte)), s.Inv →
    ∃ t n, exec (.decode arrivals) s = .next t ∧ t.config = s.config ∧ t.tx = s.tx ∧ t.txRes = s.txRes ∧
      t.input = (arrivals.drop n).flatten.map Transaction.arr ++ s.input ∧
      ∀ a, ¬ s.storesTo (arrivals.take n).flatten.length a → t.mem.read? a = s.mem.read? a

/-- R127 (a): a frame alone in the buffer is decoded to its reading exactly once, consuming exactly 8 bytes, for every
16-bit value of both fields. -/
def Obligations.RoundTripDecodesOnce : Prop :=
  ∀ (s : State) (r : Reading), s.Inv → s.q = encodeFrame r →
    ∃ t, exec (.decode []) s = .next t ∧
      t.view = { s.view with
        q := [], rd := s.rd ++ [r], ev := s.ev ++ [acceptEvent, idleEvent], rxRes := s.rxRes ++ [.count 1] } ∧
      ∀ a, t.mem.read? a = s.mem.read? a

/-- R127 (b): noise before a frame costs exactly its own bytes. -/
def Obligations.NoiseBeforeAFrameIsDiscarded : Prop :=
  ∀ (s : State) (g : List Byte) (r : Reading), s.Inv → (∀ x ∈ g, x ≠ 0xAA) → s.q = g ++ encodeFrame r →
    ∃ t, exec (.decode []) s = .next t ∧
      t.view = { s.view with
        q := []
        rd := s.rd ++ [r]
        ev := s.ev ++ g.map noiseEvent ++ [acceptEvent, idleEvent]
        rxRes := s.rxRes ++ [.count 1] }

/-- R127 (c): the first `k < 8` bytes of a frame yield no reading, one event, and stay buffered. -/
def Obligations.TruncatedFrameWaits : Prop :=
  ∀ (s : State) (r : Reading) (k : Nat), s.Inv → k ≤ 7 → s.q = (encodeFrame r).take k →
    exec (.decode []) s = .next { s with
      ev := s.ev ++ [if k = 0 then ⟨.idle, 0⟩ else if k ≤ 2 then ⟨.needLen, 0⟩ else ⟨.needBody, 0x04⟩]
      rxRes := s.rxRes ++ [.count 0] }

/-- R127 (d): a frame with a wrong checksum byte loses its header at the first iteration, and a DECODE over it yields no
reading. -/
def Obligations.CorruptedChecksumYieldsNoReading : Prop :=
  ∀ (s : State) (r : Reading) (c : Byte), s.Inv → c ≠ frameChecksum r →
    s.q = wireBytes r.soilMoisture r.lightIntensity c →
    (∃ t, exec .dstep s = .next t ∧ t.q = (wireBytes r.soilMoisture r.lightIntensity c).drop 1 ∧
      t.ev = s.ev ++ [⟨.error .checksumMismatch, 0xAA⟩] ∧ t.rd = s.rd) ∧
    ∃ t, exec (.decode []) s = .next t ∧ t.rd = s.rd ∧ t.rxRes = s.rxRes ++ [.count 0]

/-- R127 (e): header-free garbage, then two frames, decodes to exactly the two readings in order. -/
def Obligations.TwoFramesBehindGarbageAreRecovered : Prop :=
  ∀ (s : State) (g : List Byte) (r r' : Reading), s.Inv → (∀ x ∈ g, x ≠ 0xAA) →
    s.q = g ++ encodeFrame r ++ encodeFrame r' →
    ∃ t, exec (.decode []) s = .next t ∧
      t.view = { s.view with
        q := []
        rd := s.rd ++ [r, r']
        ev := s.ev ++ g.map noiseEvent ++ [acceptEvent, acceptEvent, idleEvent]
        rxRes := s.rxRes ++ [.count 2] }

/-- R128 (b), R177: a false header with an admissible length makes every DECODE a single waiting iteration until the bytes
it claims are buffered, whatever lies behind it. That the scheduled arrivals then become the next transactions is the
model's choice (log entry 4, decision D12). -/
def Obligations.FalseHeaderStallsDecoding : Prop :=
  ∀ (s : State) (len : Byte) (arrivals : List (List Byte)), s.Inv → Candidate s.config.maxFrame s.q len →
    s.q.length < len.toNat + 4 →
    exec (.decode arrivals) s = .next { s with
      ev := s.ev ++ [⟨.needBody, len⟩]
      rxRes := s.rxRes ++ [.count 0]
      input := arrivals.flatten.map Transaction.arr ++ s.input }

/-- R176: after a DECODE, `CAPACITY - MAX_FRAME + 1` further bytes fit: none of them evicts anything. -/
def Obligations.DecodingInTimeNeverEvicts : Prop :=
  ∀ (s t : State) (arrivals : List (List Byte)) (p : List Byte) (rest : List Transaction), s.Inv →
    exec (.decode arrivals) s = .next t → p.length + s.config.maxFrame ≤ s.config.capacity + 1 →
    ∃ u : State, run p.length { t with input := p.map Transaction.arr ++ rest } = .next u ∧
      u.q = t.q ++ p ∧ u.input = rest

/-- From sender to receiver over a clean line (R44, R127 (a), R143, R145): SEND puts the frame on the line, its bytes
arrive one by one, and one DECODE of a receiver with an empty buffer emits exactly the reading that was sent. -/
def Obligations.ReadingTravelsFromSenderToReceiver : Prop :=
  ∀ (s : State) (r : Reading), s.Inv → s.q = [] →
    s.input = .txOp 0x90000 [] r :: ((encodeFrame r).map Transaction.arr ++ [.rxOp .polling 0x70000 [] []]) →
    ∃ t : State, run 10 s = .next t ∧
      t.view = { s.view with
        tx := s.tx ++ encodeFrame r
        rd := s.rd ++ [r]
        ev := s.ev ++ [acceptEvent, idleEvent]
        rxRes := s.rxRes ++ [.count 1]
        txRes := s.txRes ++ [.done]
        input := [] }
end

