-- ==== Sys2Proof/Laws/Checksum.lean ====
section
/-! SUPPORT. The accumulator of CKSUM is the sum modulo 256 (R80, R81). -/

namespace Sys2Proof.Machine

@[simp] theorem cksum_nil : cksum [] = 0 := rfl

theorem cksum_cons (b : Byte) (s : List Byte) : cksum (b :: s) = b + cksum s := by
  simp [cksum, BitVec.ofNat_add]

theorem cksumLoop_eq (s : List Byte) (acc : Byte) : cksumLoop s acc = acc + cksum s := by
  induction s generalizing acc with
  | nil => simp [cksumLoop]
  | cons b rest ih => rw [cksumLoop, ih, cksum_cons, BitVec.add_assoc]

theorem cksum_toNat (s : List Byte) : (cksum s).toNat = (s.map BitVec.toNat).sum % 256 := by
  simp [cksum]

theorem cksum_append (s t : List Byte) : cksum (s ++ t) = cksum s + cksum t := by
  induction s with
  | nil => simp
  | cons b rest ih => simp [cksum_cons, ih, BitVec.add_assoc]

theorem cksum_eq_iff (s : List Byte) (c : Byte) : cksum s = c ↔ (s.map BitVec.toNat).sum % 256 = c.toNat := by
  rw [← cksum_toNat]
  exact BitVec.toNat_inj.symm

end Sys2Proof.Machine
end

