-- ==== Sys2Proof/Laws/Memory.lean ====
section
/-! SUPPORT. Storage cells: read after write, and that a write keeps the canonical form. -/

namespace Sys2Proof.Machine

theorem Memory.read?_write_same (m : Memory) (i : Nat) (v : Byte) : (m.write i v).read? i = some v := by
  induction m with
  | nil => simp [Memory.write, Memory.read?]
  | cons c rest ih =>
    obtain ⟨a, b⟩ := c
    simp only [Memory.write]
    split_ifs with h1 h2 <;> simp_all [Memory.read?]
    omega

theorem Memory.read?_write_of_ne (m : Memory) {i a : Nat} (v : Byte) (h : a ≠ i) :
    (m.write i v).read? a = m.read? a := by
  induction m with
  | nil => simp [Memory.write, Memory.read?, Ne.symm h]
  | cons c rest ih =>
    obtain ⟨x, b⟩ := c
    simp only [Memory.write]
    split_ifs with h1 h2 <;> simp only [Memory.read?]
    · simp [Ne.symm h]
    · subst h2
      simp [Ne.symm h]
    · simp [ih]

theorem Memory.mem_write {m : Memory} {i : Nat} {v : Byte} {c : Host.Cell} (h : c ∈ m.write i v) :
    c = (i, v) ∨ c ∈ m := by
  induction m with
  | nil => simpa [Memory.write] using h
  | cons d rest ih =>
    obtain ⟨a, b⟩ := d
    simp only [Memory.write] at h
    split_ifs at h with h1 h2 <;> simp only [List.mem_cons] at h ⊢ <;> tauto

theorem Memory.write_wf {m : Memory} (h : m.wf) (i : Nat) (v : Byte) : (m.write i v).wf := by
  induction m with
  | nil => simp [Memory.write]
  | cons d rest ih =>
    obtain ⟨a, b⟩ := d
    simp only [List.pairwise_cons] at h
    simp only [Memory.write]
    split_ifs with h1 h2
    · simp only [List.pairwise_cons, List.mem_cons, forall_eq_or_imp]
      exact ⟨⟨h1, fun c hc => lt_trans h1 (h.1 c hc)⟩, h.1, h.2⟩
    · subst h2
      simpa only [List.pairwise_cons] using h
    · simp only [List.pairwise_cons]
      refine ⟨fun c hc => ?_, ih h.2⟩
      rcases Memory.mem_write hc with rfl | hc
      · show a < i
        omega
      · exact h.1 c hc

end Sys2Proof.Machine
end

