-- ==== Sys2Proof/Laws/State.lean ====
section
/-! SUPPORT. One lemma per field per shared update of State. -/

namespace Sys2Proof.Machine

variable (s : State) (b : Byte) (k : Nat) (e : Event) (r : Reading) (p : Response)

@[simp] theorem dropFront_config : (dropFront k s).config = s.config := rfl
@[simp] theorem dropFront_mem : (dropFront k s).mem = s.mem := rfl
@[simp] theorem dropFront_head : (dropFront k s).head = s.cellIndex k := rfl
@[simp] theorem dropFront_count : (dropFront k s).count = s.count - k := rfl
@[simp] theorem dropFront_tx : (dropFront k s).tx = s.tx := rfl
@[simp] theorem dropFront_rd : (dropFront k s).rd = s.rd := rfl
@[simp] theorem dropFront_ev : (dropFront k s).ev = s.ev := rfl
@[simp] theorem dropFront_rxRes : (dropFront k s).rxRes = s.rxRes := rfl
@[simp] theorem dropFront_txRes : (dropFront k s).txRes = s.txRes := rfl
@[simp] theorem dropFront_input : (dropFront k s).input = s.input := rfl

@[simp] theorem clearBuffer_config : (clearBuffer s).config = s.config := rfl
@[simp] theorem clearBuffer_mem : (clearBuffer s).mem = s.mem := rfl
@[simp] theorem clearBuffer_head : (clearBuffer s).head = 0 := rfl
@[simp] theorem clearBuffer_count : (clearBuffer s).count = 0 := rfl
@[simp] theorem clearBuffer_tx : (clearBuffer s).tx = s.tx := rfl
@[simp] theorem clearBuffer_rd : (clearBuffer s).rd = s.rd := rfl
@[simp] theorem clearBuffer_ev : (clearBuffer s).ev = s.ev := rfl
@[simp] theorem clearBuffer_rxRes : (clearBuffer s).rxRes = s.rxRes := rfl
@[simp] theorem clearBuffer_txRes : (clearBuffer s).txRes = s.txRes := rfl
@[simp] theorem clearBuffer_input : (clearBuffer s).input = s.input := rfl

@[simp] theorem emitReading_config : (emitReading r s).config = s.config := rfl
@[simp] theorem emitReading_mem : (emitReading r s).mem = s.mem := rfl
@[simp] theorem emitReading_head : (emitReading r s).head = s.head := rfl
@[simp] theorem emitReading_count : (emitReading r s).count = s.count := rfl
@[simp] theorem emitReading_tx : (emitReading r s).tx = s.tx := rfl
@[simp] theorem emitReading_rd : (emitReading r s).rd = s.rd ++ [r] := rfl
@[simp] theorem emitReading_ev : (emitReading r s).ev = s.ev := rfl
@[simp] theorem emitReading_rxRes : (emitReading r s).rxRes = s.rxRes := rfl
@[simp] theorem emitReading_txRes : (emitReading r s).txRes = s.txRes := rfl
@[simp] theorem emitReading_input : (emitReading r s).input = s.input := rfl

@[simp] theorem emitEvent_config : (emitEvent e s).config = s.config := rfl
@[simp] theorem emitEvent_mem : (emitEvent e s).mem = s.mem := rfl
@[simp] theorem emitEvent_head : (emitEvent e s).head = s.head := rfl
@[simp] theorem emitEvent_count : (emitEvent e s).count = s.count := rfl
@[simp] theorem emitEvent_tx : (emitEvent e s).tx = s.tx := rfl
@[simp] theorem emitEvent_rd : (emitEvent e s).rd = s.rd := rfl
@[simp] theorem emitEvent_ev : (emitEvent e s).ev = s.ev ++ [e] := rfl
@[simp] theorem emitEvent_rxRes : (emitEvent e s).rxRes = s.rxRes := rfl
@[simp] theorem emitEvent_txRes : (emitEvent e s).txRes = s.txRes := rfl
@[simp] theorem emitEvent_input : (emitEvent e s).input = s.input := rfl

@[simp] theorem emitTx_config : (emitTx b s).config = s.config := rfl
@[simp] theorem emitTx_mem : (emitTx b s).mem = s.mem := rfl
@[simp] theorem emitTx_head : (emitTx b s).head = s.head := rfl
@[simp] theorem emitTx_count : (emitTx b s).count = s.count := rfl
@[simp] theorem emitTx_tx : (emitTx b s).tx = s.tx ++ [b] := rfl
@[simp] theorem emitTx_rd : (emitTx b s).rd = s.rd := rfl
@[simp] theorem emitTx_ev : (emitTx b s).ev = s.ev := rfl
@[simp] theorem emitTx_rxRes : (emitTx b s).rxRes = s.rxRes := rfl
@[simp] theorem emitTx_txRes : (emitTx b s).txRes = s.txRes := rfl
@[simp] theorem emitTx_input : (emitTx b s).input = s.input := rfl

@[simp] theorem respond_receiver_config : (respond .receiver p s).config = s.config := rfl
@[simp] theorem respond_receiver_mem : (respond .receiver p s).mem = s.mem := rfl
@[simp] theorem respond_receiver_head : (respond .receiver p s).head = s.head := rfl
@[simp] theorem respond_receiver_count : (respond .receiver p s).count = s.count := rfl
@[simp] theorem respond_receiver_tx : (respond .receiver p s).tx = s.tx := rfl
@[simp] theorem respond_receiver_rd : (respond .receiver p s).rd = s.rd := rfl
@[simp] theorem respond_receiver_ev : (respond .receiver p s).ev = s.ev := rfl
@[simp] theorem respond_receiver_rxRes : (respond .receiver p s).rxRes = s.rxRes ++ [p] := rfl
@[simp] theorem respond_receiver_txRes : (respond .receiver p s).txRes = s.txRes := rfl
@[simp] theorem respond_receiver_input : (respond .receiver p s).input = s.input := rfl

@[simp] theorem respond_sender_config : (respond .sender p s).config = s.config := rfl
@[simp] theorem respond_sender_mem : (respond .sender p s).mem = s.mem := rfl
@[simp] theorem respond_sender_head : (respond .sender p s).head = s.head := rfl
@[simp] theorem respond_sender_count : (respond .sender p s).count = s.count := rfl
@[simp] theorem respond_sender_tx : (respond .sender p s).tx = s.tx := rfl
@[simp] theorem respond_sender_rd : (respond .sender p s).rd = s.rd := rfl
@[simp] theorem respond_sender_ev : (respond .sender p s).ev = s.ev := rfl
@[simp] theorem respond_sender_rxRes : (respond .sender p s).rxRes = s.rxRes := rfl
@[simp] theorem respond_sender_txRes : (respond .sender p s).txRes = s.txRes ++ [p] := rfl
@[simp] theorem respond_sender_input : (respond .sender p s).input = s.input := rfl

@[simp] theorem pushByte_config : (pushByte b s).config = s.config := by unfold pushByte; split <;> rfl
@[simp] theorem pushByte_tx : (pushByte b s).tx = s.tx := by unfold pushByte; split <;> rfl
@[simp] theorem pushByte_rd : (pushByte b s).rd = s.rd := by unfold pushByte; split <;> rfl
@[simp] theorem pushByte_ev : (pushByte b s).ev = s.ev := by unfold pushByte; split <;> rfl
@[simp] theorem pushByte_rxRes : (pushByte b s).rxRes = s.rxRes := by unfold pushByte; split <;> rfl
@[simp] theorem pushByte_txRes : (pushByte b s).txRes = s.txRes := by unfold pushByte; split <;> rfl
@[simp] theorem pushByte_input : (pushByte b s).input = s.input := by unfold pushByte; split <;> rfl
@[simp] theorem pushByte_mem : (pushByte b s).mem = s.mem.write (pushCell s) b := by unfold pushByte; split <;> rfl

@[simp] theorem arriveNext_config (bs : List Byte) : (arriveNext bs s).config = s.config := rfl
@[simp] theorem arriveNext_mem (bs : List Byte) : (arriveNext bs s).mem = s.mem := rfl
@[simp] theorem arriveNext_head (bs : List Byte) : (arriveNext bs s).head = s.head := rfl
@[simp] theorem arriveNext_count (bs : List Byte) : (arriveNext bs s).count = s.count := rfl
@[simp] theorem arriveNext_tx (bs : List Byte) : (arriveNext bs s).tx = s.tx := rfl
@[simp] theorem arriveNext_rd (bs : List Byte) : (arriveNext bs s).rd = s.rd := rfl
@[simp] theorem arriveNext_ev (bs : List Byte) : (arriveNext bs s).ev = s.ev := rfl
@[simp] theorem arriveNext_rxRes (bs : List Byte) : (arriveNext bs s).rxRes = s.rxRes := rfl
@[simp] theorem arriveNext_txRes (bs : List Byte) : (arriveNext bs s).txRes = s.txRes := rfl
@[simp] theorem arriveNext_input (bs : List Byte) : (arriveNext bs s).input = bs.map Transaction.arr ++ s.input := rfl

@[simp] theorem pushAll_config (bs : List Byte) : (pushAll bs s).config = s.config := by
  induction bs generalizing s with
  | nil => rfl
  | cons x xs ih => simp [pushAll, ih]
@[simp] theorem pushAll_tx (bs : List Byte) : (pushAll bs s).tx = s.tx := by
  induction bs generalizing s with
  | nil => rfl
  | cons x xs ih => simp [pushAll, ih]
@[simp] theorem pushAll_rd (bs : List Byte) : (pushAll bs s).rd = s.rd := by
  induction bs generalizing s with
  | nil => rfl
  | cons x xs ih => simp [pushAll, ih]
@[simp] theorem pushAll_ev (bs : List Byte) : (pushAll bs s).ev = s.ev := by
  induction bs generalizing s with
  | nil => rfl
  | cons x xs ih => simp [pushAll, ih]
@[simp] theorem pushAll_rxRes (bs : List Byte) : (pushAll bs s).rxRes = s.rxRes := by
  induction bs generalizing s with
  | nil => rfl
  | cons x xs ih => simp [pushAll, ih]
@[simp] theorem pushAll_txRes (bs : List Byte) : (pushAll bs s).txRes = s.txRes := by
  induction bs generalizing s with
  | nil => rfl
  | cons x xs ih => simp [pushAll, ih]
@[simp] theorem pushAll_input (bs : List Byte) : (pushAll bs s).input = s.input := by
  induction bs generalizing s with
  | nil => rfl
  | cons x xs ih => simp [pushAll, ih]

@[simp] theorem sendBytes_config (bs : List Byte) : (sendBytes bs s).config = s.config := by
  induction bs generalizing s with
  | nil => simp [sendBytes]
  | cons x xs ih => simp [sendBytes, ih]
@[simp] theorem sendBytes_mem (bs : List Byte) : (sendBytes bs s).mem = s.mem := by
  induction bs generalizing s with
  | nil => simp [sendBytes]
  | cons x xs ih => simp [sendBytes, ih]
@[simp] theorem sendBytes_head (bs : List Byte) : (sendBytes bs s).head = s.head := by
  induction bs generalizing s with
  | nil => simp [sendBytes]
  | cons x xs ih => simp [sendBytes, ih]
@[simp] theorem sendBytes_count (bs : List Byte) : (sendBytes bs s).count = s.count := by
  induction bs generalizing s with
  | nil => simp [sendBytes]
  | cons x xs ih => simp [sendBytes, ih]
@[simp] theorem sendBytes_tx (bs : List Byte) : (sendBytes bs s).tx = s.tx ++ bs := by
  induction bs generalizing s with
  | nil => simp [sendBytes]
  | cons x xs ih => simp [sendBytes, ih]
@[simp] theorem sendBytes_rd (bs : List Byte) : (sendBytes bs s).rd = s.rd := by
  induction bs generalizing s with
  | nil => simp [sendBytes]
  | cons x xs ih => simp [sendBytes, ih]
@[simp] theorem sendBytes_ev (bs : List Byte) : (sendBytes bs s).ev = s.ev := by
  induction bs generalizing s with
  | nil => simp [sendBytes]
  | cons x xs ih => simp [sendBytes, ih]
@[simp] theorem sendBytes_rxRes (bs : List Byte) : (sendBytes bs s).rxRes = s.rxRes := by
  induction bs generalizing s with
  | nil => simp [sendBytes]
  | cons x xs ih => simp [sendBytes, ih]
@[simp] theorem sendBytes_txRes (bs : List Byte) : (sendBytes bs s).txRes = s.txRes := by
  induction bs generalizing s with
  | nil => simp [sendBytes]
  | cons x xs ih => simp [sendBytes, ih]
@[simp] theorem sendBytes_input (bs : List Byte) : (sendBytes bs s).input = s.input := by
  induction bs generalizing s with
  | nil => simp [sendBytes]
  | cons x xs ih => simp [sendBytes, ih]

end Sys2Proof.Machine
end

