-- ==== Sys2Proof/Laws/Ring.lean ====
section
/-! SUPPORT. What each ring operation does to `Q`, and that it keeps the invariant (R24, R25, R90, R92, R97). -/

namespace Sys2Proof.Machine

theorem State.Inv.admissible {s : State} (h : s.Inv) : s.config.Admissible := h.1
theorem State.Inv.head_lt {s : State} (h : s.Inv) : s.head < s.config.capacity := h.2.1
theorem State.Inv.count_le {s : State} (h : s.Inv) : s.count ≤ s.config.capacity := h.2.2.1
theorem State.Inv.mem_wf {s : State} (h : s.Inv) : s.mem.wf := h.2.2.2.1
theorem State.Inv.cells {s : State} (h : s.Inv) : ∀ c ∈ s.mem, c.1 < s.config.capacity := h.2.2.2.2.1
theorem State.Inv.written {s : State} (h : s.Inv) {i : Nat} (hi : i < s.count) :
    (s.mem.read? (s.cellIndex i)).isSome = true := h.2.2.2.2.2 i hi
theorem State.Inv.capacity_pos {s : State} (h : s.Inv) : 0 < s.config.capacity := by
  have := h.admissible.1
  omega

@[simp] theorem State.q_length (s : State) : s.q.length = s.count := by simp [State.q]

theorem State.q_getElem? (s : State) (i : Nat) : s.q[i]? = if i < s.count then some (s.byteAt i) else none := by
  simp only [State.q, List.getElem?_map]
  split_ifs with h
  · simp [List.getElem?_range h]
  · simp [List.getElem?_eq_none (l := List.range s.count) (i := i) (by simpa using h)]

/-- A state with the same ring has the same content. -/
theorem State.q_congr {s t : State} (hc : t.config = s.config) (hm : t.mem = s.mem) (hh : t.head = s.head)
    (hn : t.count = s.count) : t.q = s.q := by
  simp [State.q, State.byteAt, State.cell, State.cellIndex, hc, hm, hh, hn]

theorem State.Inv.congr {s t : State} (h : s.Inv) (hc : t.config = s.config) (hm : t.mem = s.mem)
    (hh : t.head = s.head) (hn : t.count = s.count) : t.Inv := by
  unfold State.Inv State.cellIndex at *
  rw [hc, hm, hh, hn]
  exact h

section outputs
variable (s : State) (b : Byte) (e : Event) (r : Reading) (p : Response) (side : Side) (bs : List Byte)

@[simp] theorem q_emitReading : (emitReading r s).q = s.q := State.q_congr rfl rfl rfl rfl
@[simp] theorem q_emitEvent : (emitEvent e s).q = s.q := State.q_congr rfl rfl rfl rfl
@[simp] theorem q_emitTx : (emitTx b s).q = s.q := State.q_congr rfl rfl rfl rfl
@[simp] theorem q_respond : (respond side p s).q = s.q := by cases side <;> exact State.q_congr rfl rfl rfl rfl
@[simp] theorem q_arriveNext : (arriveNext bs s).q = s.q := State.q_congr rfl rfl rfl rfl
@[simp] theorem q_sendBytes : (sendBytes bs s).q = s.q := State.q_congr (by simp) (by simp) (by simp) (by simp)

variable {s}
theorem State.Inv.emitReading (h : s.Inv) : (emitReading r s).Inv := h.congr rfl rfl rfl rfl
theorem State.Inv.emitEvent (h : s.Inv) : (emitEvent e s).Inv := h.congr rfl rfl rfl rfl
theorem State.Inv.respond (h : s.Inv) : (respond side p s).Inv := by
  cases side <;> exact State.Inv.congr h rfl rfl rfl rfl
theorem State.Inv.arriveNext (h : s.Inv) : (arriveNext bs s).Inv := h.congr rfl rfl rfl rfl
theorem State.Inv.sendBytes (h : s.Inv) : (sendBytes bs s).Inv := h.congr (by simp) (by simp) (by simp) (by simp)
end outputs

/-! ## Removal from the front -/

theorem cellIndex_dropFront (s : State) (k i : Nat) : (dropFront k s).cellIndex i = s.cellIndex (k + i) := by
  simp [State.cellIndex, Nat.add_assoc]

theorem byteAt_dropFront (s : State) (k i : Nat) : (dropFront k s).byteAt i = s.byteAt (k + i) := by
  simp only [State.byteAt, State.cell, cellIndex_dropFront, dropFront_mem]

theorem q_dropFront (s : State) (k : Nat) : (dropFront k s).q = s.q.drop k := by
  apply List.ext_getElem?
  intro i
  simp only [List.getElem?_drop, State.q_getElem?, byteAt_dropFront, dropFront_count]
  congr 1
  simp only [eq_iff_iff]
  omega

theorem State.Inv.dropFront {s : State} (h : s.Inv) (k : Nat) : (dropFront k s).Inv := by
  refine ⟨h.admissible, Nat.mod_lt _ h.capacity_pos, ?_, h.mem_wf, h.cells, fun i hi => ?_⟩
  · have := h.count_le
    simp only [dropFront_count, dropFront_config]
    omega
  · rw [cellIndex_dropFront]
    simp only [dropFront_count] at hi
    exact h.written (by omega)

theorem q_clearBuffer (s : State) : (clearBuffer s).q = [] := by simp [State.q]

theorem State.Inv.clearBuffer {s : State} (h : s.Inv) : (clearBuffer s).Inv :=
  ⟨h.admissible, h.capacity_pos, Nat.zero_le _, h.mem_wf, h.cells, fun i hi => absurd hi (Nat.not_lt_zero i)⟩

/-! ## PUSH -/

theorem State.Inv.pushCell_lt {s : State} (h : s.Inv) : pushCell s < s.config.capacity := by
  unfold pushCell
  split
  · exact Nat.mod_lt _ h.capacity_pos
  · exact h.head_lt

theorem cellIndex_inj {s : State} (h : s.Inv) {i j : Nat} (hi : i < s.config.capacity) (hj : j < s.config.capacity)
    (he : s.cellIndex i = s.cellIndex j) : i = j := by
  have hh := h.head_lt
  simp only [State.cellIndex] at he
  rcases lt_or_ge (s.head + i) s.config.capacity with h1 | h1 <;>
    rcases lt_or_ge (s.head + j) s.config.capacity with h2 | h2
  · rw [Nat.mod_eq_of_lt h1, Nat.mod_eq_of_lt h2] at he; omega
  · rw [Nat.mod_eq_of_lt h1, Nat.mod_eq_sub_mod h2, Nat.mod_eq_of_lt (by omega)] at he; omega
  · rw [Nat.mod_eq_of_lt h2, Nat.mod_eq_sub_mod h1, Nat.mod_eq_of_lt (by omega)] at he; omega
  · rw [Nat.mod_eq_sub_mod h1, Nat.mod_eq_sub_mod h2, Nat.mod_eq_of_lt (by omega), Nat.mod_eq_of_lt (by omega)] at he
    omega

theorem cellIndex_zero {s : State} (h : s.Inv) : s.cellIndex 0 = s.head := by
  simpa [State.cellIndex] using Nat.mod_eq_of_lt h.head_lt

/-- The cell PUSH writes is the one that holds the new byte afterwards, and no other byte that stays. -/
theorem q_pushByte {s : State} (h : s.Inv) (b : Byte) :
    (pushByte b s).q = if s.q.length < s.config.capacity then s.q ++ [b] else s.q.drop 1 ++ [b] := by
  rw [State.q_length]
  apply List.ext_getElem?
  intro i
  by_cases hc : s.count < s.config.capacity
  · have hp : pushByte b s = { s with mem := s.mem.write (s.cellIndex s.count) b, count := s.count + 1 } := by
      simp [pushByte, pushCell, hc]
    simp only [hc, if_true, hp, State.q_getElem?, State.byteAt, State.cell, State.cellIndex, List.getElem?_append,
      State.q_length]
    rcases lt_trichotomy i s.count with hi | hi | hi
    · have hne : (s.head + i) % s.config.capacity ≠ (s.head + s.count) % s.config.capacity :=
        fun he => (Nat.ne_of_lt hi) (cellIndex_inj h (by omega) hc he)
      rw [Memory.read?_write_of_ne _ _ hne]
      simp [hi, Nat.lt_succ_of_lt hi]
    · subst hi
      simp [Memory.read?_write_same]
    · rw [if_neg (by omega), if_neg (by omega), List.getElem?_eq_none]
      simp only [List.length_singleton]
      omega
  · have hp : pushByte b s = { s with mem := s.mem.write s.head b, head := s.cellIndex 1 } := by
      simp [pushByte, pushCell, hc]
    have hcap := h.capacity_pos
    have hle := h.count_le
    have heq : s.count = s.config.capacity := by omega
    have hidx : ∀ j, (s.cellIndex 1 + j) % s.config.capacity = s.cellIndex (1 + j) := by
      intro j
      simp [State.cellIndex, Nat.add_assoc]
    simp only [hc, if_false, hp, State.q_getElem?, State.byteAt, State.cell, List.getElem?_append, List.length_drop,
      State.q_length, List.getElem?_drop]
    have hidx' : State.cellIndex { s with mem := s.mem.write s.head b, head := s.cellIndex 1 } i = s.cellIndex (1 + i) :=
      hidx i
    rw [hidx']
    by_cases hi : i < s.count - 1
    · have hne : s.cellIndex (1 + i) ≠ s.head := by
        rw [← cellIndex_zero h]
        intro he
        have := cellIndex_inj h (by omega) hcap he
        omega
      rw [Memory.read?_write_of_ne _ _ hne]
      simp [hi, show i < s.count by omega, show 1 + i < s.count by omega]
    · by_cases hi2 : i = s.count - 1
      · have hz : s.cellIndex (1 + i) = s.head := by
          rw [State.cellIndex, show s.head + (1 + i) = s.head + s.config.capacity by omega, Nat.add_mod_right]
          exact Nat.mod_eq_of_lt h.head_lt
        rw [hz, Memory.read?_write_same, if_pos (by omega), if_neg hi, hi2]
        simp
      · rw [if_neg (by omega), if_neg hi, List.getElem?_eq_none]
        simp only [List.length_singleton]
        omega

theorem count_pushByte {s : State} (h : s.Inv) (b : Byte) :
    (pushByte b s).count = if s.count < s.config.capacity then s.count + 1 else s.config.capacity := by
  have := h.count_le
  unfold pushByte
  split_ifs with hc
  · rfl
  · show s.count = _
    omega

theorem read?_pushByte (s : State) (b : Byte) (a : Nat) :
    (pushByte b s).mem.read? a = if a = pushCell s then some b else s.mem.read? a := by
  rw [pushByte_mem]
  split_ifs with h
  · rw [h, Memory.read?_write_same]
  · exact Memory.read?_write_of_ne _ _ h

theorem State.Inv.pushByte {s : State} (h : s.Inv) (b : Byte) : (pushByte b s).Inv := by
  have hcap := h.capacity_pos
  refine ⟨by simpa using h.admissible, ?_, ?_, ?_, ?_, ?_⟩
  · simp only [pushByte_config]
    unfold Machine.pushByte
    split_ifs
    · exact h.head_lt
    · exact Nat.mod_lt _ hcap
  · rw [count_pushByte h, pushByte_config]
    split_ifs <;> omega
  · rw [pushByte_mem]
    exact Memory.write_wf h.mem_wf _ _
  · intro c hcm
    rw [pushByte_mem] at hcm
    rw [pushByte_config]
    rcases Memory.mem_write hcm with rfl | hcm
    · exact h.pushCell_lt
    · exact h.cells c hcm
  · intro i hi
    rw [read?_pushByte]
    split_ifs with hp
    · rfl
    · unfold Machine.pushByte at hi hp ⊢
      unfold pushCell at hp
      split_ifs at hi hp ⊢ with hc
      · have hi' : i ≠ s.count := fun he => hp (by rw [he]; rfl)
        exact h.written (i := i) (by change i < s.count + 1 at hi; omega)
      · change i < s.count at hi
        have hle := h.count_le
        have e1 : ∀ j, State.cellIndex { s with mem := s.mem.write s.head b, head := s.cellIndex 1 } j
            = s.cellIndex (1 + j) := by
          intro j
          simp [State.cellIndex, Nat.add_assoc]
        rw [e1] at hp
        rw [show pushCell s = s.head by simp [pushCell, hc], e1]
        by_cases hl : 1 + i < s.count
        · exact h.written hl
        · exfalso
          apply hp
          rw [State.cellIndex, show s.head + (1 + i) = s.head + s.config.capacity by omega, Nat.add_mod_right]
          exact Nat.mod_eq_of_lt h.head_lt

theorem State.Inv.pushAll {s : State} (h : s.Inv) (bs : List Byte) : (pushAll bs s).Inv := by
  induction bs generalizing s with
  | nil => exact h
  | cons b rest ih => exact ih (h.pushByte b)

/-- The overflow law (R94): the last `min(|Q0| + m, CAPACITY)` bytes of `Q0 ++ p`. -/
theorem q_pushAll {s : State} (h : s.Inv) (bs : List Byte) :
    (pushAll bs s).q = (s.q ++ bs).drop (s.q.length + bs.length - s.config.capacity) := by
  induction bs generalizing s with
  | nil =>
    have := h.count_le
    simp only [Machine.pushAll, List.append_nil, List.length_nil, State.q_length, Nat.add_zero]
    rw [Nat.sub_eq_zero_of_le this, List.drop_zero]
  | cons b rest ih =>
    have hle := h.count_le
    rw [Machine.pushAll, ih (h.pushByte b), q_pushByte h, pushByte_config]
    simp only [State.q_length]
    split_ifs with hc
    · rw [List.append_assoc, List.singleton_append]
      congr 1
      simp only [List.length_append, List.length_cons, List.length_nil, State.q_length]
      omega
    · have heq : s.count = s.config.capacity := by omega
      have hpos := h.capacity_pos
      have hsplit : s.q ++ b :: rest = (s.q ++ [b]) ++ rest := by simp
      have hlen : (s.q.drop 1 ++ [b]).length + rest.length - s.config.capacity = rest.length := by
        simp only [List.length_append, List.length_drop, List.length_cons, List.length_nil, State.q_length]
        omega
      rw [hsplit, hlen, List.length_cons, show s.count + (rest.length + 1) - s.config.capacity = 1 + rest.length by omega,
        ← List.drop_drop]
      congr 1
      rw [List.append_assoc, List.append_assoc, List.drop_append_of_le_length (by simp; omega)]

/-! ## Cells, and the view -/

theorem peekByte_eq (i : Nat) (s : State) : peekByte i s = s.q[i]? := by
  rw [State.q_getElem?]
  rfl

/-- `HEAD + COUNT` names the cell of the next PUSH; removal from the front does not move it. -/
theorem nextCell_dropFront (s : State) {k : Nat} (hk : k ≤ s.count) (i : Nat) :
    ((dropFront k s).head + (dropFront k s).count + i) % s.config.capacity = (s.head + s.count + i) % s.config.capacity := by
  simp only [dropFront_head, dropFront_count, State.cellIndex]
  rw [Nat.add_assoc, Nat.add_mod, Nat.mod_mod, ← Nat.add_mod]
  congr 1
  omega

theorem nextCell_pushByte {s : State} (h : s.Inv) (b : Byte) (i : Nat) :
    ((pushByte b s).head + (pushByte b s).count + i) % s.config.capacity =
      (s.head + s.count + (1 + i)) % s.config.capacity := by
  have := h.count_le
  unfold pushByte State.cellIndex
  split_ifs
  · simp only []
    congr 1
    omega
  · simp only []
    rw [Nat.add_assoc, Nat.add_mod, Nat.mod_mod, ← Nat.add_mod]
    congr 1
    omega

theorem nextCell_pushAll {s : State} (h : s.Inv) (bs : List Byte) (i : Nat) :
    ((pushAll bs s).head + (pushAll bs s).count + i) % s.config.capacity =
      (s.head + s.count + (bs.length + i)) % s.config.capacity := by
  induction bs generalizing s i with
  | nil => simp [pushAll]
  | cons b rest ih =>
    have h1 := ih (h.pushByte b) i
    rw [pushByte_config, nextCell_pushByte h] at h1
    rw [Machine.pushAll, h1, List.length_cons]
    congr 1
    omega

theorem pushCell_eq {s : State} (h : s.Inv) : pushCell s = (s.head + s.count) % s.config.capacity := by
  have := h.count_le
  unfold pushCell State.cellIndex
  split_ifs
  · rfl
  · rw [show s.count = s.config.capacity by omega, Nat.add_mod_right, Nat.mod_eq_of_lt h.head_lt]

/-- PUSHes write the cells of `State.storesTo` and no other. -/
theorem read?_pushAll_of_not_storesTo {s : State} (h : s.Inv) (bs : List Byte) {a : Nat}
    (ha : ¬ s.storesTo bs.length a) : (pushAll bs s).mem.read? a = s.mem.read? a := by
  induction bs generalizing s with
  | nil => rfl
  | cons b rest ih =>
    have hne : a ≠ pushCell s := by
      rw [pushCell_eq h]
      exact fun he => ha ⟨0, by simp, by simpa using he⟩
    rw [Machine.pushAll, ih (h.pushByte b), read?_pushByte, if_neg hne]
    rintro ⟨i, hi, he⟩
    rw [pushByte_config, nextCell_pushByte h] at he
    exact ha ⟨1 + i, by simp only [List.length_cons]; omega, he⟩

/-- Fields nothing in PUSH reads may be replaced before it or after it. -/
theorem pushAll_with_input (bs : List Byte) (s : State) (x : List Transaction) :
    pushAll bs { s with input := x } = { pushAll bs s with input := x } := by
  induction bs generalizing s with
  | nil => rfl
  | cons b rest ih =>
    have hb : pushByte b { s with input := x } = { pushByte b s with input := x } := by
      by_cases h : s.count < s.config.capacity <;> simp [pushByte, h, pushCell, State.cellIndex]
    rw [pushAll, hb, ih, pushAll]

theorem pushAll_with_rxRes (bs : List Byte) (s : State) (x : List Response) :
    pushAll bs { s with rxRes := x } = { pushAll bs s with rxRes := x } := by
  induction bs generalizing s with
  | nil => rfl
  | cons b rest ih =>
    have hb : pushByte b { s with rxRes := x } = { pushByte b s with rxRes := x } := by
      by_cases h : s.count < s.config.capacity <;> simp [pushByte, h, pushCell, State.cellIndex]
    rw [pushAll, hb, ih, pushAll]

theorem view_eq_iff (s t : State) :
    s.view = t.view ↔ s.config = t.config ∧ s.q = t.q ∧ s.tx = t.tx ∧ s.rd = t.rd ∧ s.ev = t.ev ∧ s.rxRes = t.rxRes ∧
      s.txRes = t.txRes ∧ s.input = t.input := by
  simp [State.view]

theorem view_respond_receiver (s : State) (r : Response) :
    (respond .receiver r s).view = { s.view with rxRes := s.rxRes ++ [r] } := by
  simp [State.view]

theorem view_pushByte {s : State} (h : s.Inv) (b : Byte) :
    (pushByte b s).view =
      { s.view with q := if s.q.length < s.config.capacity then s.q ++ [b] else s.q.drop 1 ++ [b] } := by
  simp [State.view, q_pushByte h]

theorem view_pushAll {s : State} (h : s.Inv) (bs : List Byte) :
    (pushAll bs s).view = { s.view with q := (s.q ++ bs).drop (s.q.length + bs.length - s.config.capacity) } := by
  simp [State.view, q_pushAll h]

end Sys2Proof.Machine
end

