-- ==== Sys2Proof/Laws/Decoder.lean ====
section
/-! SUPPORT. What one iteration does to `Q` and the streams, and what the loop of DECODE can do (R113, R120, R124, R125). -/

namespace Sys2Proof.Machine

/-- How many bytes an iteration removes (R120). -/
def removed : IterResult → Nat
  | .idle => 0
  | .needLen => 0
  | .needBody _ => 0
  | .discard _ _ => 1
  | .accept _ => 8

section
variable (r : IterResult) (s : State)

@[simp] theorem applyIteration_config : (applyIteration r s).config = s.config := by cases r <;> rfl
@[simp] theorem applyIteration_mem : (applyIteration r s).mem = s.mem := by cases r <;> rfl
@[simp] theorem applyIteration_tx : (applyIteration r s).tx = s.tx := by cases r <;> rfl
@[simp] theorem applyIteration_rxRes : (applyIteration r s).rxRes = s.rxRes := by cases r <;> rfl
@[simp] theorem applyIteration_txRes : (applyIteration r s).txRes = s.txRes := by cases r <;> rfl
@[simp] theorem applyIteration_input : (applyIteration r s).input = s.input := by cases r <;> rfl
@[simp] theorem applyIteration_count : (applyIteration r s).count = s.count - removed r := by cases r <;> rfl
@[simp] theorem applyIteration_rd : (applyIteration r s).rd = s.rd ++ r.readings := by
  cases r <;> simp [applyIteration, recoverError, IterResult.readings]
@[simp] theorem applyIteration_ev : (applyIteration r s).ev = s.ev ++ [eventOf s.q r] := by
  cases r <;> simp [applyIteration, recoverError, eventOf]
@[simp] theorem applyIteration_q : (applyIteration r s).q = s.q.drop (removed r) := by
  cases r <;> simp [applyIteration, recoverError, q_dropFront, removed, frameBytes]

variable {s}
theorem State.Inv.applyIteration (h : s.Inv) : (applyIteration r s).Inv := by
  cases r
  · exact h.emitEvent _
  · exact h.emitEvent _
  · exact h.emitEvent _
  · exact (h.dropFront 1).emitEvent _
  · exact ((h.dropFront _).emitReading _).emitEvent _

/-- A stopping iteration adds its event and nothing else. -/
theorem applyIteration_of_stops {r : IterResult} (hr : r.stops = true) :
    applyIteration r s = { s with ev := s.ev ++ [eventOf s.q r] } := by
  cases r <;> first | rfl | cases hr
end

/-- Two states with one content and one `MAX_FRAME` have one iteration result. -/
theorem iterationOf_congr {s t : State} (hc : t.config = s.config) (hq : t.q = s.q) :
    iterationOf t = iterationOf s := by
  simp [iterationOf, hc, hq]

/-- What a result says about the content, from which everything else about an iteration follows (R113, R126). -/
theorem iterationOf_cases (s : State) :
    ((iterationOf s).stops = true ∧ removed (iterationOf s) = 0 ∧ (iterationOf s).readings = []) ∨
    ((iterationOf s).stops = false ∧ (∃ kind, iterationOf s = .discard kind (byteOf s.q 0)) ∧ 1 ≤ s.count) ∨
    ((iterationOf s).stops = false ∧ ∃ r, iterationOf s = .accept r ∧ 8 ≤ s.count) := by
  unfold iterationOf resultFrom fromSeek fromNeedLen fromNeedBody fromRejected fromAccepted
  simp only [State.q_length]
  split_ifs <;> simp_all [IterResult.stops, removed, IterResult.readings, payloadWidth, frameLen] <;> omega

theorem removed_le_count (s : State) : removed (iterationOf s) ≤ s.count := by
  rcases iterationOf_cases s with ⟨_, h, _⟩ | ⟨_, ⟨k, h⟩, hc⟩ | ⟨_, r, h, hc⟩
  · omega
  · rw [h]; exact hc
  · rw [h]; exact hc

theorem removed_pos {s : State} (h : (iterationOf s).stops = false) : 1 ≤ removed (iterationOf s) := by
  cases hr : iterationOf s <;> simp_all [IterResult.stops, removed]

/-! ## The loop -/

theorem count_pushAll_le (bs : List Byte) (s : State) : (pushAll bs s).count ≤ s.count + bs.length := by
  induction bs generalizing s with
  | nil => simp [pushAll]
  | cons b rest ih =>
    have h1 := ih (pushByte b s)
    have h2 : (pushByte b s).count ≤ s.count + 1 := by unfold pushByte; split <;> simp
    simp only [pushAll, List.length_cons]
    omega

theorem decodeLoop_of_stops (fuel : Nat) (arrivals : List (List Byte)) (n : Nat) {s : State}
    (h : (iterationOf s).stops = true) :
    decodeLoop (fuel + 1) arrivals n s = { state := iterate s, readings := n, leftover := arrivals } := by
  have hr : (iterationOf s).readings = [] := by
    rcases iterationOf_cases s with ⟨_, _, hr⟩ | ⟨hf, _⟩ | ⟨hf, _⟩
    · exact hr
    · rw [h] at hf; cases hf
    · rw [h] at hf; cases hf
  simp [decodeLoop, h, hr, iterate]

theorem decodeLoop_of_continues (fuel : Nat) (arrivals : List (List Byte)) (n : Nat) {s : State}
    (h : (iterationOf s).stops = false) :
    decodeLoop (fuel + 1) arrivals n s =
      decodeLoop fuel arrivals.tail (n + (iterationOf s).readings.length) (pushAll (arrivals.headD []) (iterate s)) := by
  cases arrivals <;> simp [decodeLoop, h, iterate, pushAll]

/-- What is left to examine when the loop goes on is less than before: each iteration that does not stop removes a byte. -/
theorem decodeFuel_decreases {s : State} (arrivals : List (List Byte)) (h : (iterationOf s).stops = false) :
    decodeFuel arrivals.tail (pushAll (arrivals.headD []) (iterate s)) < decodeFuel arrivals s := by
  have h1 := removed_le_count s
  have h2 := removed_pos h
  have h3 := count_pushAll_le (arrivals.headD []) (iterate s)
  have h4 : (iterate s).count = s.count - removed (iterationOf s) := applyIteration_count _ _
  have h5 : arrivals.flatten.length = (arrivals.headD []).length + arrivals.tail.flatten.length := by
    cases arrivals <;> simp
  unfold decodeFuel
  omega

/-- Enough fuel is enough: more changes nothing. -/
theorem decodeLoop_fuel (fuel : Nat) (arrivals : List (List Byte)) (n : Nat) (s : State)
    (h : decodeFuel arrivals s ≤ fuel) :
    decodeLoop fuel arrivals n s = decodeLoop (decodeFuel arrivals s) arrivals n s := by
  induction fuel using Nat.strong_induction_on generalizing arrivals n s with
  | _ fuel ih =>
    obtain ⟨f, rfl⟩ : ∃ f, fuel = f + 1 := ⟨fuel - 1, by unfold decodeFuel at h; omega⟩
    have hd : decodeFuel arrivals s = (decodeFuel arrivals s - 1) + 1 := by unfold decodeFuel; omega
    cases hs : (iterationOf s).stops
    · have hlt := decodeFuel_decreases arrivals hs
      rw [hd, decodeLoop_of_continues _ _ _ hs, decodeLoop_of_continues _ _ _ hs, ih f (by omega) _ _ _ (by omega),
        ih (decodeFuel arrivals s - 1) (by omega) _ _ _ (by omega)]
    · rw [hd, decodeLoop_of_stops _ _ _ hs, decodeLoop_of_stops _ _ _ hs]

/-- The loop with the fuel DECODE gives it. -/
def decodeRun (arrivals : List (List Byte)) (n : Nat) (s : State) : DecodeEnd :=
  decodeLoop (decodeFuel arrivals s) arrivals n s

theorem decodeRun_of_stops (arrivals : List (List Byte)) (n : Nat) {s : State} (h : (iterationOf s).stops = true) :
    decodeRun arrivals n s = { state := iterate s, readings := n, leftover := arrivals } := by
  have hd : decodeFuel arrivals s = (decodeFuel arrivals s - 1) + 1 := by unfold decodeFuel; omega
  rw [decodeRun, hd, decodeLoop_of_stops _ _ _ h]

theorem decodeRun_of_continues (arrivals : List (List Byte)) (n : Nat) {s : State}
    (h : (iterationOf s).stops = false) :
    decodeRun arrivals n s =
      decodeRun arrivals.tail (n + (iterationOf s).readings.length) (pushAll (arrivals.headD []) (iterate s)) := by
  have hd : decodeFuel arrivals s = (decodeFuel arrivals s - 1) + 1 := by unfold decodeFuel; omega
  have hlt := decodeFuel_decreases arrivals h
  rw [decodeRun, hd, decodeLoop_of_continues _ _ _ h, decodeLoop_fuel _ _ _ _ (by omega), decodeRun]

/-- Induction along the iterations of a DECODE: the last one stops, each one before it goes on with the next arrivals. -/
theorem decode_induction {P : List (List Byte) → State → Prop}
    (stop : ∀ arrivals s, (iterationOf s).stops = true → P arrivals s)
    (go : ∀ arrivals s, (iterationOf s).stops = false →
      P arrivals.tail (pushAll (arrivals.headD []) (iterate s)) → P arrivals s)
    (arrivals : List (List Byte)) (s : State) : P arrivals s := by
  generalize hn : decodeFuel arrivals s = n
  induction n using Nat.strong_induction_on generalizing arrivals s with
  | _ n ih =>
    cases hs : (iterationOf s).stops
    · have hlt := decodeFuel_decreases arrivals hs
      exact go arrivals s hs (ih _ (by omega) _ _ rfl)
    · exact stop arrivals s hs

theorem execDecode_eq (arrivals : List (List Byte)) (s : State) :
    execDecode arrivals s = .next (respond .receiver (.count (decodeRun arrivals 0 s).readings)
      (arriveNext (decodeRun arrivals 0 s).leftover.flatten (decodeRun arrivals 0 s).state)) := rfl

/-- The count of readings starts where it is told to. -/
theorem decodeRun_readings (arrivals : List (List Byte)) (n : Nat) (s : State) :
    decodeRun arrivals n s =
      { decodeRun arrivals 0 s with readings := n + (decodeRun arrivals 0 s).readings } := by
  induction arrivals, s using decode_induction generalizing n with
  | stop arrivals s h => simp [decodeRun_of_stops _ _ h]
  | go arrivals s h ih =>
    rw [decodeRun_of_continues _ n h, decodeRun_of_continues _ 0 h, ih (n + _), ih (0 + _)]
    simp [Nat.add_assoc]

/-- DECODE ends in a state that keeps the invariant and whose next iteration stops. -/
theorem decodeRun_stops (arrivals : List (List Byte)) (n : Nat) {s : State} (hs : s.Inv) :
    (decodeRun arrivals n s).state.Inv ∧ (iterationOf (decodeRun arrivals n s).state).stops = true := by
  induction arrivals, s using decode_induction generalizing n with
  | stop arrivals s h =>
    rw [decodeRun_of_stops _ _ h]
    have hi : iterate s = { s with ev := s.ev ++ [eventOf s.q (iterationOf s)] } := applyIteration_of_stops h
    refine ⟨hs.applyIteration _, ?_⟩
    rw [iterationOf_congr (s := s) (by simp [hi]) (State.q_congr (by simp [hi]) (by simp [hi]) (by simp [hi]) (by simp [hi]))]
    exact h
  | go arrivals s h ih =>
    rw [decodeRun_of_continues _ _ h]
    exact ih _ ((hs.applyIteration _).pushAll _)

end Sys2Proof.Machine
end

