-- ==== Sys2Proof/Laws/Encoding.lean ====
section
/-! SUPPORT. The fields of a command word and of a frame word (R60, R70, R71). -/

namespace Sys2Proof

theorem makeCmd_toNat (op : BitVec 4) (arg : Half) : (makeCmd op arg).toNat = op.toNat * 65536 + arg.toNat := by
  unfold makeCmd
  rw [BitVec.toNat_append, ← Nat.shiftLeft_add_eq_or_of_lt arg.isLt, Nat.shiftLeft_eq]

@[simp] theorem opCode_makeCmd (op : BitVec 4) (arg : Half) : opCode (makeCmd op arg) = op := by
  apply BitVec.eq_of_toNat_eq
  have := op.isLt
  have := arg.isLt
  simp only [opCode, BitVec.extractLsb'_toNat, makeCmd_toNat, Nat.shiftRight_eq_div_pow]
  omega

@[simp] theorem opArg_makeCmd (op : BitVec 4) (arg : Half) : opArg (makeCmd op arg) = arg := by
  apply BitVec.eq_of_toNat_eq
  have := arg.isLt
  simp only [opArg, BitVec.extractLsb'_toNat, makeCmd_toNat, Nat.shiftRight_eq_div_pow]
  omega

/-- The low byte of `op_arg` is `cmd[7:0]`. -/
@[simp] theorem argByte_makeCmd (op : BitVec 4) (arg : Half) : argByte (makeCmd op arg) = loByte arg := by
  apply BitVec.eq_of_toNat_eq
  simp only [argByte, loByte, BitVec.extractLsb'_toNat, makeCmd_toNat, Nat.shiftRight_eq_div_pow]
  omega

theorem hiByte_toNat (v : Half) : (hiByte v).toNat = v.toNat / 256 := by
  have := v.isLt
  simp only [hiByte, BitVec.extractLsb'_toNat, Nat.shiftRight_eq_div_pow]
  omega

theorem loByte_toNat (v : Half) : (loByte v).toNat = v.toNat % 256 := by
  simp [loByte, BitVec.extractLsb'_toNat]

/-- A 16-bit operand whose high byte is ignored: the low byte is the operand. -/
@[simp] theorem loByte_append (ignored b : Byte) : loByte (ignored ++ b) = b := by
  apply BitVec.eq_of_toNat_eq
  have := b.isLt
  rw [loByte_toNat, BitVec.toNat_append, ← Nat.shiftLeft_add_eq_or_of_lt b.isLt, Nat.shiftLeft_eq]
  omega

@[simp] theorem loByte_setWidth (b : Byte) : loByte (b.setWidth 16) = b := by
  apply BitVec.eq_of_toNat_eq
  have := b.isLt
  rw [loByte_toNat, BitVec.toNat_setWidth]
  omega

/-- A field of a frame word as a number. -/
theorem extractFrameField_toNat (w : FrameWord) (start width : Nat) :
    (w.extractLsb' start width).toNat = w.toNat / 2 ^ start % 2 ^ width := by
  simp [BitVec.extractLsb'_toNat, Nat.shiftRight_eq_div_pow]

/-- The frame word as a number, field by field. -/
theorem packFrame_toNat (s l : Half) (c : Byte) :
    (packFrame (wireBytes s l c)).toNat =
      0xAA04 * 2 ^ 48 + s.toNat * 2 ^ 32 + l.toNat * 2 ^ 16 + c.toNat * 2 ^ 8 + 0x55 := by
  have h1 := s.isLt
  have h2 := l.isLt
  have h3 := c.isLt
  have h4 : header.toNat = 0xAA := rfl
  have h5 : payloadWidth.toNat = 4 := rfl
  have h6 : tail.toNat = 0x55 := rfl
  simp only [packFrame, wireBytes, List.foldl_cons, List.foldl_nil, BitVec.toNat_ofNat, hiByte_toNat, loByte_toNat,
    h4, h5, h6]
  omega

end Sys2Proof
end

