-- ==== Sys2Proof/Laws/Frame.lean ====
section
/-! SUPPORT. Fields, frames and readings: reading back what was laid out (R45, R60, R63 to R65). -/

namespace Sys2Proof.Machine

theorem byteOf_of_getElem? {s : List Byte} {i : Nat} {b : Byte} (h : s[i]? = some b) : byteOf s i = b := by
  simp [byteOf, List.getD_eq_getElem?_getD, h]

theorem joinBytes_toNat (hi lo : Byte) : (joinBytes hi lo).toNat = hi.toNat * 256 + lo.toNat := by
  rw [joinBytes, BitVec.toNat_append, ← Nat.shiftLeft_add_eq_or_of_lt lo.isLt, Nat.shiftLeft_eq]

@[simp] theorem joinBytes_hiByte_loByte (v : Half) : joinBytes (hiByte v) (loByte v) = v := by
  apply BitVec.eq_of_toNat_eq
  rw [joinBytes_toNat, hiByte_toNat, loByte_toNat]
  omega

@[simp] theorem hiByte_joinBytes (hi lo : Byte) : hiByte (joinBytes hi lo) = hi := by
  apply BitVec.eq_of_toNat_eq
  have := lo.isLt
  rw [hiByte_toNat, joinBytes_toNat]
  omega

@[simp] theorem loByte_joinBytes (hi lo : Byte) : loByte (joinBytes hi lo) = lo := by
  apply BitVec.eq_of_toNat_eq
  have := lo.isLt
  rw [loByte_toNat, joinBytes_toNat]
  omega

theorem frameChecksum_toNat (r : Reading) :
    (frameChecksum r).toNat = (4 + r.soilMoisture.toNat / 256 + r.soilMoisture.toNat % 256 +
      r.lightIntensity.toNat / 256 + r.lightIntensity.toNat % 256) % 256 := by
  simp only [frameChecksum, cksum_toNat, List.map_cons, List.map_nil, List.sum_cons, List.sum_nil, hiByte_toNat,
    loByte_toNat]
  change (4 + _) % 256 = _
  congr 1
  omega

theorem encodeFrame_eq (r : Reading) :
    encodeFrame r = [0xAA, 0x04, hiByte r.soilMoisture, loByte r.soilMoisture, hiByte r.lightIntensity,
      loByte r.lightIntensity, frameChecksum r, 0x55] := rfl

@[simp] theorem encodeFrame_length (r : Reading) : (encodeFrame r).length = 8 := rfl

/-- The payload is read where it was laid, whatever follows the frame. -/
theorem frameReading_encodeFrame_append (r : Reading) (rest : List Byte) : frameReading (encodeFrame r ++ rest) = r := by
  simp [frameReading, encodeFrame_eq, byteOf]

/-- The eight bytes of a valid frame (R65). -/
theorem validFrame_shape {f : List Byte} (h : validFrame f = true) :
    ∃ b2 b3 b4 b5 c, f = [0xAA, 0x04, b2, b3, b4, b5, c, 0x55] ∧ cksum [4, b2, b3, b4, b5] = c := by
  simp only [validFrame, decide_eq_true_eq] at h
  obtain ⟨h0, h2, h3, h4, h5⟩ := h
  match f, h0 with
  | [a0, a1, a2, a3, a4, a5, a6, a7], _ =>
    simp only [byteOf, List.getD_cons_zero, List.getD_cons_succ] at h2 h3 h4 h5
    subst h2 h3 h4
    exact ⟨a2, a3, a4, a5, a6, rfl, h5.symm⟩

end Sys2Proof.Machine
end

