-- ==== Sys2Proof/Laws/Iteration.lean ====
section
/-! SUPPORT. The result of one iteration, case by case from the bytes at the front (R67, R113 to R119). -/

namespace Sys2Proof.Machine

theorem iterationOf_eq (s : State) : iterationOf s = fromSeek s.config.maxFrame s.q := rfl

@[simp] theorem fromSeek_nil (maxFrame : Nat) : fromSeek maxFrame [] = .idle := rfl

theorem fromSeek_noise (maxFrame : Nat) {d : Byte} (rest : List Byte) (h : d ≠ 0xAA) :
    fromSeek maxFrame (d :: rest) = .discard .noiseByte d := by
  simp only [fromSeek]
  rw [if_neg (by simp), if_pos (by simpa [byteOf, header] using h)]
  rfl

theorem fromSeek_header {maxFrame : Nat} {q : List Byte} (h : q[0]? = some 0xAA) :
    fromSeek maxFrame q = fromNeedLen maxFrame q := by
  have hne : q.length ≠ 0 := by
    intro h0
    rw [List.length_eq_zero_iff.mp h0] at h
    cases h
  simp only [fromSeek]
  rw [if_neg hne, if_neg (by rw [byteOf_of_getElem? h]; simp [header])]

theorem fromSeek_needLen {maxFrame : Nat} {q : List Byte} (h : q[0]? = some 0xAA) (hl : q.length < 3) :
    fromSeek maxFrame q = .needLen := by
  rw [fromSeek_header h, fromNeedLen, if_pos hl]

theorem fromSeek_invalidLength {maxFrame : Nat} {len x : Byte} (rest : List Byte)
    (h : len = 0 ∨ maxFrame < frameLen len) :
    fromSeek maxFrame (0xAA :: len :: x :: rest) = .discard .invalidLength 0xAA := by
  rw [fromSeek_header rfl, fromNeedLen, if_neg (by simp), if_pos (by simpa [byteOf] using h)]
  rfl

theorem fromSeek_candidate {maxFrame : Nat} {q : List Byte} {len : Byte} (h : Candidate maxFrame q len) :
    fromSeek maxFrame q = fromNeedBody q := by
  obtain ⟨h1, h2, h3, h4, h5⟩ := h
  rw [fromSeek_header h2, fromNeedLen, if_neg (by omega), byteOf_of_getElem? h3, if_neg]
  rintro (h | h)
  · exact h4 h
  · simp only [frameLen] at h
    omega

theorem fromNeedBody_short {q : List Byte} {len : Byte} (h : q[1]? = some len) (hl : q.length < len.toNat + 4) :
    fromNeedBody q = .needBody (len.toNat + 4) := by
  simp only [fromNeedBody, byteOf_of_getElem? h, frameLen]
  rw [if_pos hl]

/-- Steps 7 to 10 on a fully buffered candidate. -/
theorem fromNeedBody_full {q : List Byte} {len last c : Byte} (h : q[1]? = some len)
    (hl : q[len.toNat + 3]? = some last) (hc : q[len.toNat + 2]? = some c) :
    fromNeedBody q =
      if last ≠ 0x55 then .discard .tailMismatch 0xAA
      else if cksum ((q.drop 1).take (len.toNat + 1)) ≠ c then .discard .checksumMismatch 0xAA
      else if len ≠ 4 then .discard .unexpectedPayloadWidth 0xAA
      else .accept (frameReading (q.take (len.toNat + 4))) := by
  have hlen : len.toNat + 3 < q.length := by
    by_contra hn
    rw [List.getElem?_eq_none (by omega)] at hl
    cases hl
  simp only [fromNeedBody, byteOf_of_getElem? h, frameLen]
  rw [if_neg (by omega)]
  have b1 : byteOf (q.take (len.toNat + 4)) (len.toNat + 4 - 1) = last :=
    byteOf_of_getElem? (by rw [List.getElem?_take_of_lt (by omega)]; exact hl)
  have b2 : byteOf (q.take (len.toNat + 4)) (len.toNat + 4 - 2) = c :=
    byteOf_of_getElem? (by rw [List.getElem?_take_of_lt (by omega)]; exact hc)
  have b3 : (List.drop 1 (q.take (len.toNat + 4))).take (len.toNat + 4 - 3) = (q.drop 1).take (len.toNat + 1) := by
    rw [List.drop_take, List.take_take]
    congr 1
    omega
  rw [b1, b2, b3]
  rfl

theorem fromSeek_accept {maxFrame : Nat} (hm : 8 ≤ maxFrame) (b2 b3 b4 b5 c : Byte) (rest : List Byte)
    (hc : cksum [4, b2, b3, b4, b5] = c) :
    fromSeek maxFrame (0xAA :: 0x04 :: b2 :: b3 :: b4 :: b5 :: c :: 0x55 :: rest) =
      .accept ⟨joinBytes b2 b3, joinBytes b4 b5⟩ := by
  rw [fromSeek_candidate (len := 4) ⟨by simp, rfl, rfl, by simp, by simpa using hm⟩,
    fromNeedBody_full (len := 4) (last := 0x55) (c := c) rfl rfl rfl, if_neg (by simp), if_neg (by simpa using hc),
    if_neg (by simp)]
  rfl

theorem fromSeek_encodeFrame {maxFrame : Nat} (hm : 8 ≤ maxFrame) (r : Reading) (rest : List Byte) :
    fromSeek maxFrame (encodeFrame r ++ rest) = .accept r := by
  have h := fromSeek_accept hm (hiByte r.soilMoisture) (loByte r.soilMoisture) (hiByte r.lightIntensity)
    (loByte r.lightIntensity) (frameChecksum r) rest rfl
  rwa [joinBytes_hiByte_loByte, joinBytes_hiByte_loByte] at h

/-- Every buffer content is in one of these classes (R67); the last is a fully buffered candidate. -/
theorem fromSeek_cases (maxFrame : Nat) (q : List Byte) :
    (q = [] ∧ fromSeek maxFrame q = .idle) ∨
    (∃ d rest, q = d :: rest ∧ d ≠ 0xAA ∧ fromSeek maxFrame q = .discard .noiseByte d) ∨
    (q[0]? = some 0xAA ∧ q.length < 3 ∧ fromSeek maxFrame q = .needLen) ∨
    (∃ len x rest, q = 0xAA :: len :: x :: rest ∧ (len = 0 ∨ maxFrame < frameLen len) ∧
      fromSeek maxFrame q = .discard .invalidLength 0xAA) ∨
    (∃ len, Candidate maxFrame q len ∧ q.length < len.toNat + 4 ∧ fromSeek maxFrame q = .needBody (len.toNat + 4)) ∨
    (∃ len last c, Candidate maxFrame q len ∧ q[len.toNat + 3]? = some last ∧ q[len.toNat + 2]? = some c) := by
  match q with
  | [] => exact .inl ⟨rfl, rfl⟩
  | d :: rest =>
    by_cases hd : d = 0xAA
    · subst hd
      match rest with
      | [] => exact .inr (.inr (.inl ⟨rfl, by simp, fromSeek_needLen rfl (by simp)⟩))
      | [len] => exact .inr (.inr (.inl ⟨rfl, by simp, fromSeek_needLen rfl (by simp)⟩))
      | len :: x :: more =>
        by_cases hv : len = 0 ∨ maxFrame < frameLen len
        · exact .inr (.inr (.inr (.inl ⟨len, x, more, rfl, hv, fromSeek_invalidLength more hv⟩)))
        · have hv' := not_or.mp hv
          have hc : Candidate maxFrame (0xAA :: len :: x :: more) len :=
            ⟨by simp, rfl, rfl, hv'.1, by have := hv'.2; simp only [frameLen] at this; omega⟩
          by_cases hs : (0xAA :: len :: x :: more : List Byte).length < len.toNat + 4
          · exact .inr (.inr (.inr (.inr (.inl ⟨len, hc, hs,
              (fromSeek_candidate hc).trans (fromNeedBody_short rfl hs)⟩))))
          · exact .inr (.inr (.inr (.inr (.inr ⟨len, _, _, hc, List.getElem?_eq_getElem (by omega),
              List.getElem?_eq_getElem (by omega)⟩))))
    · exact .inr (.inl ⟨d, rest, rfl, hd, fromSeek_noise maxFrame rest hd⟩)

end Sys2Proof.Machine
end

