-- ==== Sys2Proof/Laws/DecodeRun.lean ====
section
/-! SUPPORT. Everything the loop of DECODE can do to the streams, the content and the cells (R124, R125, R49). -/

namespace Sys2Proof.Machine

section
variable (arrivals : List (List Byte)) (n : Nat) (s : State)

/-- What the loop leaves alone. -/
theorem decodeRun_frame :
    (decodeRun arrivals n s).state.config = s.config ∧ (decodeRun arrivals n s).state.tx = s.tx ∧
      (decodeRun arrivals n s).state.rxRes = s.rxRes ∧ (decodeRun arrivals n s).state.txRes = s.txRes ∧
      (decodeRun arrivals n s).state.input = s.input := by
  induction arrivals, s using decode_induction generalizing n with
  | stop arrivals s h =>
    rw [decodeRun_of_stops _ _ h]
    simp [iterate]
  | go arrivals s h ih =>
    rw [decodeRun_of_continues _ _ h]
    simpa [iterate] using ih (n + (iterationOf s).readings.length)

@[simp] theorem decodeRun_config : (decodeRun arrivals n s).state.config = s.config := (decodeRun_frame _ _ _).1
@[simp] theorem decodeRun_tx : (decodeRun arrivals n s).state.tx = s.tx := (decodeRun_frame _ _ _).2.1
@[simp] theorem decodeRun_rxRes : (decodeRun arrivals n s).state.rxRes = s.rxRes := (decodeRun_frame _ _ _).2.2.1
@[simp] theorem decodeRun_txRes : (decodeRun arrivals n s).state.txRes = s.txRes := (decodeRun_frame _ _ _).2.2.2.1
@[simp] theorem decodeRun_input : (decodeRun arrivals n s).state.input = s.input := (decodeRun_frame _ _ _).2.2.2.2

/-- The loop does not look at the responses made before it. -/
theorem decodeRun_with_rxRes (x : List Response) :
    decodeRun arrivals n { s with rxRes := x } =
      { decodeRun arrivals n s with state := { (decodeRun arrivals n s).state with rxRes := x } } := by
  induction arrivals, s using decode_induction generalizing n with
  | stop arrivals s h =>
    rw [decodeRun_of_stops _ _ h, decodeRun_of_stops (s := { s with rxRes := x }) _ _ h]
    have h1 : iterate { s with rxRes := x } = { s with rxRes := x, ev := s.ev ++ [eventOf s.q (iterationOf s)] } :=
      applyIteration_of_stops (s := { s with rxRes := x }) h
    have h2 : iterate s = { s with ev := s.ev ++ [eventOf s.q (iterationOf s)] } := applyIteration_of_stops (s := s) h
    rw [h1, h2]
  | go arrivals s h ih =>
    rw [decodeRun_of_continues _ _ h, decodeRun_of_continues (s := { s with rxRes := x }) _ _ h]
    have h1 : iterate { s with rxRes := x } = { iterate s with rxRes := x } := by
      show applyIteration (iterationOf s) _ = { applyIteration (iterationOf s) s with rxRes := x }
      cases iterationOf s <;> rfl
    rw [h1, pushAll_with_rxRes]
    exact ih _

/-- What the loop adds to the streams: readings, one event per iteration, the last one alone a stop. -/
theorem decodeRun_outputs :
    ∃ rd ev e, (decodeRun arrivals n s).state.rd = s.rd ++ rd ∧ (decodeRun arrivals n s).state.ev = s.ev ++ ev ++ [e] ∧
      (decodeRun arrivals n s).readings = n + rd.length ∧ (∀ x ∈ ev, x.isStop = false) ∧
      (ev ++ [e]).countP Event.isAccept = rd.length ∧
      e = eventOf (decodeRun arrivals n s).state.q (iterationOf (decodeRun arrivals n s).state) ∧
      (arrivals = [] → ev.length ≤ s.q.length ∧ (decodeRun arrivals n s).state.q <:+ s.q) := by
  induction arrivals, s using decode_induction generalizing n with
  | stop arrivals s h =>
    rw [decodeRun_of_stops _ _ h]
    have hi : iterate s = { s with ev := s.ev ++ [eventOf s.q (iterationOf s)] } := applyIteration_of_stops (s := s) h
    have hq : (iterate s).q = s.q := by
      rw [hi]
      rfl
    refine ⟨[], [], eventOf s.q (iterationOf s), by simp [hi], by simp [hi], rfl, by simp, ?_, ?_,
      fun _ => ⟨by simp, by rw [hq]⟩⟩
    · cases hr : iterationOf s <;> simp_all [IterResult.stops, eventOf, Event.isAccept]
    · rw [hq, iterationOf_congr (s := s) (by simp [hi]) hq]
  | go arrivals s h ih =>
    rw [decodeRun_of_continues _ _ h]
    obtain ⟨rd, ev, e, e1, e2, e3, e4, e5, e6, e7⟩ := ih (n + (iterationOf s).readings.length)
    refine ⟨(iterationOf s).readings ++ rd, eventOf s.q (iterationOf s) :: ev, e, ?_, ?_, ?_, ?_, ?_, e6, ?_⟩
    · rw [e1]
      simp [iterate]
    · rw [e2]
      simp [iterate]
    · rw [e3]
      simp [Nat.add_assoc]
    · intro x hx
      rcases List.mem_cons.mp hx with rfl | hx
      · cases hr : iterationOf s <;> simp_all [IterResult.stops, eventOf, Event.isStop]
      · exact e4 x hx
    · rw [List.cons_append, List.countP_cons, e5, List.length_append]
      cases iterationOf s <;> simp [eventOf, Event.isAccept, IterResult.readings]
      omega
    · rintro rfl
      obtain ⟨f1, f2⟩ := e7 rfl
      simp only [List.headD_nil, pushAll] at f1 f2 ⊢
      have hq : (iterate s).q = s.q.drop (removed (iterationOf s)) := by simp [iterate]
      have hp := removed_pos h
      have hle := removed_le_count s
      refine ⟨?_, f2.trans (by rw [hq]; exact List.drop_suffix _ _)⟩
      rw [hq, List.length_drop] at f1
      simp only [State.q_length, List.length_cons] at f1 ⊢
      omega
end

theorem nextCell_iterate (s : State) (i : Nat) :
    ((iterate s).head + (iterate s).count + i) % s.config.capacity = (s.head + s.count + i) % s.config.capacity := by
  have hr := removed_le_count s
  unfold iterate
  revert hr
  cases iterationOf s with
  | discard kind byte => exact fun hr => nextCell_dropFront s (k := 1) hr i
  | accept r => exact fun hr => nextCell_dropFront s (k := 8) hr i
  | idle => exact fun _ => rfl
  | needLen => exact fun _ => rfl
  | needBody f => exact fun _ => rfl

theorem storesTo_iterate (s : State) (n a : Nat) : (iterate s).storesTo n a ↔ s.storesTo n a := by
  have hc : (iterate s).config = s.config := by simp [iterate]
  simp only [State.storesTo, hc, nextCell_iterate]

/-- The content, the cells and the arrivals that did not fall: the first `m` entries of the schedule were pushed. -/
theorem decodeRun_content (arrivals : List (List Byte)) (n : Nat) {s : State} (hs : s.Inv) :
    ∃ m k, (decodeRun arrivals n s).state.q = (s.q ++ (arrivals.take m).flatten).drop k ∧
      (decodeRun arrivals n s).leftover = arrivals.drop m ∧
      ∀ a, ¬ s.storesTo (arrivals.take m).flatten.length a →
        (decodeRun arrivals n s).state.mem.read? a = s.mem.read? a := by
  induction arrivals, s using decode_induction generalizing n with
  | stop arrivals s h =>
    rw [decodeRun_of_stops _ _ h]
    exact ⟨0, removed (iterationOf s), by simp [iterate]⟩
  | go arrivals s h ih =>
    rw [decodeRun_of_continues _ _ h]
    have hi : (iterate s).Inv := hs.applyIteration _
    have hc : (iterate s).config = s.config := by simp [iterate]
    have hq : (iterate s).q = s.q.drop (removed (iterationOf s)) := by simp [iterate]
    have hr := removed_le_count s
    obtain ⟨m, k, e1, e2, e3⟩ := ih (n + (iterationOf s).readings.length) (hi.pushAll _)
    cases arrivals with
    | nil =>
      refine ⟨0, removed (iterationOf s) + k, ?_, ?_, fun a _ => ?_⟩
      · rw [e1]
        simp [pushAll, hq]
      · rw [e2]
        simp
      · rw [e3 a (by simp)]
        simp [iterate, pushAll]
    | cons b rest =>
      simp only [List.tail_cons, List.headD_cons] at e1 e2 e3 ⊢
      refine ⟨m + 1, removed (iterationOf s) + ((iterate s).q.length + b.length - s.config.capacity) + k, ?_, ?_,
        fun a ha => ?_⟩
      · have h1 : removed (iterationOf s) ≤ s.q.length := by rw [State.q_length]; exact hr
        have h2 : removed (iterationOf s) ≤ (s.q ++ b).length := by rw [List.length_append]; omega
        have h3 : (iterate s).q.length + b.length - s.config.capacity ≤ ((iterate s).q ++ b).length := by
          rw [List.length_append]
          omega
        rw [e1, q_pushAll hi, hc, ← List.drop_append_of_le_length h3, List.drop_drop, hq,
          ← List.drop_append_of_le_length h1, ← List.drop_append_of_le_length h2, List.drop_drop, List.take_succ_cons,
          List.flatten_cons, ← List.append_assoc, Nat.add_assoc]
      · rw [e2]
        simp
      · simp only [List.take_succ_cons, List.flatten_cons, List.length_append] at ha
        rw [e3, read?_pushAll_of_not_storesTo hi b]
        · simp [iterate]
        · rw [storesTo_iterate]
          rintro ⟨i, hi', he⟩
          exact ha ⟨i, by omega, he⟩
        · rintro ⟨i, hi', he⟩
          have hn := nextCell_pushAll hi b i
          rw [hc] at hn
          rw [pushAll_config, hc, hn, nextCell_iterate] at he
          exact ha ⟨b.length + i, by omega, he⟩

end Sys2Proof.Machine
end

