-- ==== Sys2Proof/Laws/PerInstr.lean ====
section
/-! SUPPORT. For every instruction: its encoding carries the fixed bits of its row of spec/opcode_table.json. -/

namespace Sys2Proof.Laws

/-- The fixed bits of a row: `(lo, width, value)`, as the table gives them. -/
def fixedBits : Instr → List (Nat × Nat × Nat)
  | .reset _ => [(16, 4, 0)]
  | .cksum _ _ => [(16, 4, 1)]
  | .push _ _ => [(16, 4, 2)]
  | .peek _ => [(16, 4, 3)]
  | .pop => [(16, 4, 4)]
  | .size => [(16, 4, 5)]
  | .dstep => [(16, 4, 6)]
  | .decode _ => [(16, 4, 7)]
  | .encode _ => [(16, 4, 8)]
  | .send _ => [(16, 4, 9)]
  | .frame _ _ _ => [(48, 16, 0xAA04), (0, 8, 0x55)]

/-- The word a transaction carries; a transaction on the arrival port carries none, it is a PUSH by its port (R70). -/
def wordOf : Transaction → Option Nat
  | .arr _ => none
  | .rxOp _ cmd _ _ => some cmd.toNat
  | .txOp cmd _ _ => some cmd.toNat
  | .wire w => some w.toNat

/-- The encoding of the instruction has its row's fixed bits, or is a PUSH on the arrival port. -/
def TableRow.Statement (i : Instr) : Prop :=
  match wordOf (encode i) with
  | some w => ∀ f ∈ fixedBits i, w / 2 ^ f.1 % 2 ^ f.2.1 = f.2.2
  | none => ∃ b, i = .push .arr b

theorem cmd_has_code (op : BitVec 4) (arg : Half) : (makeCmd op arg).toNat / 2 ^ 16 % 2 ^ 4 = op.toNat := by
  have := op.isLt
  have := arg.isLt
  rw [makeCmd_toNat]
  omega

theorem TableRow.reset (side : Side) : TableRow.Statement (.reset side) := by
  cases side <;> simpa [Statement, wordOf, encode, onPort, fixedBits] using cmd_has_code 0x0 0

theorem TableRow.cksum (side : Side) (bytes : List Byte) : TableRow.Statement (.cksum side bytes) := by
  cases side <;> simpa [Statement, wordOf, encode, onPort, fixedBits] using cmd_has_code 0x1 (BitVec.ofNat 16 bytes.length)

theorem TableRow.push (port : PushPort) (byte : Byte) : TableRow.Statement (.push port byte) := by
  cases port
  · exact ⟨byte, rfl⟩
  · simpa [Statement, wordOf, encode, onPort, fixedBits] using cmd_has_code 0x2 (byte.setWidth 16)

theorem TableRow.peek (offset : Half) : TableRow.Statement (.peek offset) := by
  simpa [Statement, wordOf, encode, onPort, fixedBits] using cmd_has_code 0x3 offset

theorem TableRow.pop : TableRow.Statement .pop := by
  simpa [Statement, wordOf, encode, onPort, fixedBits] using cmd_has_code 0x4 0

theorem TableRow.size : TableRow.Statement .size := by
  simpa [Statement, wordOf, encode, onPort, fixedBits] using cmd_has_code 0x5 0

theorem TableRow.dstep : TableRow.Statement .dstep := by
  simpa [Statement, wordOf, encode, onPort, fixedBits] using cmd_has_code 0x6 0

theorem TableRow.decode (arrivals : List (List Byte)) : TableRow.Statement (.decode arrivals) := by
  simpa [Statement, wordOf, encode, onPort, fixedBits] using cmd_has_code 0x7 0

theorem TableRow.encode (reading : Reading) : TableRow.Statement (.encode reading) := by
  simpa [Statement, wordOf, Sys2Proof.encode, onPort, fixedBits] using cmd_has_code 0x8 0

theorem TableRow.send (reading : Reading) : TableRow.Statement (.send reading) := by
  simpa [Statement, wordOf, Sys2Proof.encode, onPort, fixedBits] using cmd_has_code 0x9 0

theorem TableRow.frame (soilMoisture lightIntensity : Half) (checksum : Byte) :
    TableRow.Statement (.frame soilMoisture lightIntensity checksum) := by
  have h1 := soilMoisture.isLt
  have h2 := lightIntensity.isLt
  have h3 := checksum.isLt
  simp only [Statement, wordOf, Sys2Proof.encode, fixedBits, packFrame_toNat, List.forall_mem_cons]
  refine ⟨by omega, by omega, by simp⟩

end Sys2Proof.Laws
end

