-- ==== Sys2Proof/Laws/Step.lean ====
section
/-! SUPPORT. What a step can do, what runs of arrivals do, and the two decoder instructions as shared operations. -/

namespace Sys2Proof.Machine

theorem exec_dstep (s : State) :
    exec .dstep s = .next (respond .receiver (.iteration (iterationOf s)) (iterate s)) := rfl

theorem exec_decode (arrivals : List (List Byte)) (s : State) :
    exec (.decode arrivals) s = .next (respond .receiver (.count (decodeRun arrivals 0 s).readings)
      (arriveNext (decodeRun arrivals 0 s).leftover.flatten (decodeRun arrivals 0 s).state)) := rfl

/-- A step that answers a next state stutters or runs the instruction of the first pending transaction. -/
theorem step_cases {s t : State} (h : step s = .next t) :
    t = s ∨ ∃ i tr rest, s.input = tr :: rest ∧ decode tr = .ok i ∧ exec i { s with input := rest } = .next t := by
  unfold step at h
  split_ifs at h
  unfold takeTransaction at h
  split at h
  · rename_i he
    split at he
    · cases h
      exact .inl rfl
    · cases he
  · rename_i tr s' he
    split at he
    · cases he
    · rename_i first rest hin
      cases he
      split at h
      · exact .inr ⟨_, _, _, hin, by assumption, h⟩
      · cases h

theorem step_arr {s : State} {b : Byte} {rest : List Transaction} (ha : s.config.Admissible)
    (h : s.input = .arr b :: rest) : step s = .next (pushByte b { s with input := rest }) := by
  rw [step, if_pos ha, takeTransaction, h]
  rfl

/-- Pending arrivals, run to the last, are `pushAll`. -/
theorem run_arrivals (bs : List Byte) {s : State} {rest : List Transaction} (ha : s.config.Admissible)
    (h : s.input = bs.map Transaction.arr ++ rest) :
    run bs.length s = .next { pushAll bs s with input := rest } := by
  induction bs generalizing s with
  | nil =>
    cases s
    simp only [List.map_nil, List.nil_append] at h
    subst h
    rfl
  | cons b more ih =>
    simp only [List.map_cons, List.cons_append] at h
    have hs : step s = .next { pushByte b s with input := more.map Transaction.arr ++ rest } := by
      rw [step_arr ha h]
      exact congrArg _ (pushAll_with_input [b] s _)
    simp only [List.length_cons, run, hs]
    rw [ih (by simpa using ha) rfl, pushAll, pushAll_with_input]

theorem run_add {m : Nat} {s t : State} (n : Nat) (h : run m s = .next t) : run (m + n) s = run n t := by
  induction m generalizing s with
  | zero =>
    simp only [run] at h
    have h := Host.Outcome.next.inj h
    subst h
    simp
  | succ m ih =>
    rw [Nat.add_right_comm]
    simp only [run] at h ⊢
    split at h
    · exact ih h
    · cases h
    · cases h

/-- `run` is the host's run of the core. -/
theorem run_eq_host (n : Nat) (s : State) : run n s = Host.Core.run Sys2Proof.core n s := by
  induction n generalizing s with
  | zero => rfl
  | succ n ih =>
    cases hs : step s with
    | next s' =>
      have hc : Sys2Proof.core.step s = .next s' := hs
      simp only [run, Host.Core.run, hs, hc]
      exact ih s'
    | fault r => cases r
    | refused r =>
      have hc : Sys2Proof.core.step s = .refused r := hs
      simp only [run, Host.Core.run, hs, hc]
      rfl

end Sys2Proof.Machine
end

