-- ==== Sys2Proof/Tests/Slice0.lean ====
section
/-! SUPPORT. Tests, every expected value from spec/95_test_vectors.md or counted by hand from a rule, and for every
obligation with hypotheses states that meet them. -/

namespace Sys2Proof.Machine.Tests

/-! ## Helpers -/

/-- A receiver with the given parameters into which the bytes have been pushed after reset. -/
def receiver (capacity maxFrame : Nat) (bytes : List Byte) : State :=
  pushAll bytes { State.reset with config := { capacity := capacity, maxFrame := maxFrame } }

/-- The parameters of most vectors: 64 and 32. -/
def buffered (bytes : List Byte) : State := receiver 64 32 bytes

/-- The instruction answers a next state in which `p` holds. -/
def after (i : Instr) (s : State) (p : State → Bool) : Bool :=
  match exec i s with
  | .next t => p t
  | .fault _ => false
  | .refused _ => false

/-- A run of steps answers a next state in which `p` holds. -/
def afterRun (n : Nat) (s : State) (p : State → Bool) : Bool :=
  match run n s with
  | .next t => p t
  | .fault _ => false
  | .refused _ => false

/-- The step is refused for this reason. -/
def refusedFor (s : State) (r : Refusal) : Bool :=
  match step s with
  | .next _ => false
  | .fault _ => false
  | .refused x => decide (x = r)

/-- A state with these transactions pending. -/
def pending (s : State) (ts : List Transaction) : State := { s with input := ts }

/-- The decoder's answer, read as a refusal. -/
def decodeError (t : Transaction) : Option DecodeError :=
  match decode t with
  | .ok _ => none
  | .error e => some e

/-- The frame of `{60, 1800}`: `A` of the vectors. -/
def frameA : List Byte := [0xAA, 0x04, 0x00, 0x3C, 0x07, 0x08, 0x4F, 0x55]

/-- The frame of `{100, 65535}`: `B` of the vectors. -/
def frameB : List Byte := [0xAA, 0x04, 0x00, 0x64, 0xFF, 0xFF, 0x66, 0x55]

def noise (b : Byte) : Event := { code := .error .noiseByte, byte := b }

/-! ## WellFormed: an ill-formed term for its one check (R81) -/

theorem test_wellFormed_refuses_256_operand_bytes :
    (Instr.cksum .receiver (List.replicate 256 0)).wellFormed = false := by
  rw [Instr.wellFormed, List.length_replicate]
  decide
theorem test_wellFormed_refuses_256_operand_bytes_sender :
    (Instr.cksum .sender (List.replicate 256 0)).wellFormed = false := by
  rw [Instr.wellFormed, List.length_replicate]
  decide
theorem test_wellFormed_admits_255_operand_bytes :
    (Instr.cksum .receiver (List.replicate 255 0xFF)).wellFormed = true := by
  rw [Instr.wellFormed, List.length_replicate]
  decide

/-! ## Decode: words of the vectors, ignored bits set (R60, R70, R71) -/

theorem test_decode_reset : decode (.rxOp .polling 0x0FFFF [] []) = .ok (.reset .receiver) := by rfl
theorem test_decode_reset_sender : decode (.txOp 0x00000 [] ⟨0, 0⟩) = .ok (.reset .sender) := by rfl
theorem test_decode_cksum : decode (.rxOp .polling 0x1FF02 [0xAA, 0x55] []) = .ok (.cksum .receiver [0xAA, 0x55]) := by rfl
theorem test_decode_push : decode (.rxOp .polling 0x2FFFF [] []) = .ok (.push .op 0xFF) := by rfl
theorem test_decode_push_arr : decode (.arr 0x04) = .ok (.push .arr 0x04) := by rfl
theorem test_decode_peek : decode (.rxOp .polling 0x3FFFF [] []) = .ok (.peek 65535) := by rfl
theorem test_decode_pop : decode (.rxOp .polling 0x4ABCD [] []) = .ok .pop := by rfl
theorem test_decode_size : decode (.rxOp .polling 0x50000 [] []) = .ok .size := by rfl
theorem test_decode_dstep : decode (.rxOp .polling 0x60000 [] []) = .ok .dstep := by rfl
theorem test_decode_decode : decode (.rxOp .polling 0x70000 [] [[0x55]]) = .ok (.decode [[0x55]]) := by rfl
theorem test_decode_encode : decode (.txOp 0x80000 [] ⟨0x003C, 0x0708⟩) = .ok (.encode ⟨60, 1800⟩) := by rfl
theorem test_decode_send : decode (.txOp 0x90000 [] ⟨0x0064, 0xFFFF⟩) = .ok (.send ⟨100, 65535⟩) := by rfl
theorem test_decode_frame : decode (.wire 0xAA040032AA553555) = .ok (.frame 50 0xAA55 0x35) := by rfl
theorem test_encode_frame : encode (.frame 50 0xAA55 0x35) = .wire 0xAA040032AA553555 := by decide
theorem test_encode_push : encode (.push .op 0xAA) = .rxOp .polling 0x200AA [] [] := by decide
theorem test_encode_cksum : encode (.cksum .sender [0xFF, 0x01]) = .txOp 0x10002 [0xFF, 0x01] ⟨0, 0⟩ := by decide

/-! Refusals by name (U5, U6, U9, R65). -/

theorem test_refuse_unassigned_code : decodeError (.rxOp .polling 0xA0000 [] []) = some .unassignedOpCode := by decide
theorem test_refuse_unassigned_code_sender : decodeError (.txOp 0xFFFFF [] ⟨0, 0⟩) = some .unassignedOpCode := by decide
theorem test_refuse_send_on_receiver : decodeError (.rxOp .polling 0x90000 [] []) = some .wrongInstance := by decide
theorem test_refuse_push_on_sender : decodeError (.txOp 0x200AA [] ⟨0, 0⟩) = some .wrongInstance := by decide
theorem test_refuse_dstep_from_arrival_context :
    decodeError (.rxOp .arrival 0x60000 [] []) = some .arrivalContext := by decide
theorem test_refuse_push_inside_dstep :
    decodeError (.rxOp .polling 0x60000 [] [[0x55]]) = some .overlappingPush := by decide
theorem test_refuse_operand_length :
    decodeError (.rxOp .polling 0x10002 [0xFF] []) = some .operandLength := by decide
theorem test_refuse_wrong_tail_on_wire :
    decodeError (.wire 0xAA04003C07084F54) = some .notFramePattern := by decide
theorem test_step_refuses_unassigned_code :
    refusedFor (pending State.reset [.rxOp .polling 0xA0000 [] []]) (.undecodable .unassignedOpCode) = true := by decide

/-! ## The table's words, as the first instruction after reset -/

theorem test_table_word_reset : decodeTableWord 24 0x00000 = some (.reset .receiver) := by rfl
theorem test_table_word_cksum : decodeTableWord 24 0x10003 = some (.cksum .receiver [0, 0, 0]) := by rfl
theorem test_table_word_push : decodeTableWord 24 0x200AA = some (.push .op 0xAA) := by rfl
theorem test_table_word_encode : decodeTableWord 24 0x80000 = some (.encode ⟨0, 0⟩) := by rfl
theorem test_table_word_send : decodeTableWord 24 0x90000 = some (.send ⟨0, 0⟩) := by rfl
theorem test_table_word_frame : decodeTableWord 64 0xAA04003C07084F55 = some (.frame 60 1800 0x4F) := by rfl
theorem test_fetch_push :
    afterRun 1 (State.reset.withFetchWord 24 0x200AA) (fun t => t.q == [0xAA] && t.rxRes == [.done]) = true := by decide
theorem test_fetch_frame :
    afterRun 1 (State.reset.withFetchWord 64 0xAA04003C07084F55) (fun t => t.q == frameA) = true := by decide
theorem test_fetch_encode :
    afterRun 1 (State.reset.withFetchWord 24 0x80000)
      (fun t => t.txRes == [.frame 0xAA04000000000455]) = true := by decide

/-! ## One step of every instruction -/

/-- V-R1. -/
theorem test_reset : after (.reset .receiver) (buffered [0xAA, 0x04, 0x00])
    (fun t => t.q == [] && t.head == 0 && t.count == 0 && t.ev == []) = true := by decide
/-- V-R3. -/
theorem test_reset_sender : after (.reset .sender) (buffered [0xAA])
    (fun t => t.q == [0xAA] && t.txRes == [.done]) = true := by decide
/-- V-C2. -/
theorem test_cksum_of_frame_A : after (.cksum .sender [0x04, 0x00, 0x3C, 0x07, 0x08]) State.reset
    (fun t => t.txRes == [.byte 0x4F]) = true := by decide
/-- V-C9: the sum 309 wraps. -/
theorem test_cksum_wraps : after (.cksum .receiver [0x04, 0x00, 0x32, 0xAA, 0x55]) State.reset
    (fun t => t.rxRes == [.byte 0x35]) = true := by decide
/-- V-B11: eviction; HEAD 0 to 1, `MEM[0] = 09`. -/
theorem test_push_evicts : after (.push .op 0x09) (receiver 8 8 [1, 2, 3, 4, 5, 6, 7, 8])
    (fun t => t.q == [2, 3, 4, 5, 6, 7, 8, 9] && t.head == 1 && t.mem.read? 0 == some 9) = true := by decide
/-- V-B16. -/
theorem test_push_arr : after (.push .arr 0x04) (buffered [0xAA])
    (fun t => t.q == [0xAA, 0x04] && t.rxRes == []) = true := by decide
/-- V-B6: the last valid offset. -/
theorem test_peek_last : after (.peek 2) (buffered [0xAA, 0x04, 0x00])
    (fun t => t.rxRes == [.byte 0x00] && t.count == 3) = true := by decide
/-- V-B7: `offset = size()` fails. -/
theorem test_peek_out_of_range : after (.peek 3) (buffered [0xAA, 0x04, 0x00])
    (fun t => t.rxRes == [.outOfRange] && t.count == 3) = true := by decide
/-- V-B9. -/
theorem test_pop : after .pop (buffered [0xAA, 0x04]) (fun t => t.q == [0x04] && t.rxRes == [.byte 0xAA]) = true := by decide
/-- V-B2. -/
theorem test_pop_empty : after .pop State.reset (fun t => t.q == [] && t.rxRes == [.empty]) = true := by decide
/-- V-B12. -/
theorem test_size_full : after .size (receiver 8 8 [1, 2, 3, 4, 5, 6, 7, 8, 9])
    (fun t => t.rxRes.map Response.resCount == [some 8]) = true := by decide
/-- V-D13: tail and checksum both wrong, the tail is reported; one byte is removed. -/
theorem test_dstep_reports_the_first_defect : after .dstep (buffered [0xAA, 0x04, 0x00, 0x3C, 0x07, 0x08, 0x5F, 0x54])
    (fun t => t.ev == [⟨.error .tailMismatch, 0xAA⟩] && t.count == 7) = true := by decide
/-- R113's example, second iteration. -/
theorem test_dstep_accepts : after .dstep (buffered frameA)
    (fun t => t.q == [] && t.rd == [⟨60, 1800⟩] && t.rxRes == [.iteration (.accept ⟨60, 1800⟩)]) = true := by decide
/-- V-D19: a candidate that swallows the header of the real frame. -/
theorem test_decode_rescans : after (.decode []) (buffered ([0xAA, 0x04] ++ frameA))
    (fun t => t.q == [] && t.rd == [⟨60, 1800⟩] &&
      t.ev == [⟨.error .tailMismatch, 0xAA⟩, noise 0x04, acceptEvent, idleEvent] && t.rxRes == [.count 1]) = true := by decide
/-- Program P6: the arrival of `55` between two iterations of one DECODE. -/
theorem test_decode_with_an_arrival :
    after (.decode [[0x55]]) (buffered [0x13, 0xAA, 0x04, 0x00, 0x3C, 0x07, 0x08, 0x4F])
      (fun t => t.q == [] && t.head == 9 && t.ev == [noise 0x13, acceptEvent, idleEvent] && t.rxRes == [.count 1]) = true := by
  decide
/-- V-E10: big-endian split. -/
theorem test_encode : after (.encode ⟨256, 1⟩) State.reset
    (fun t => t.txRes == [.frame 0xAA04010000010655] && t.tx == []) = true := by decide
/-- V-E3. -/
theorem test_send : after (.send ⟨100, 65535⟩) State.reset (fun t => t.tx == frameB && t.txRes == [.done]) = true := by decide
/-- R44: the bytes of the frame in wire order, here across the end of the storage (program P10). -/
theorem test_frame_wraps_storage :
    after (.frame 60 1800 0x4F) { receiver 16 16 [] with head := 12 }
      (fun t => t.q == frameA && t.mem.read? 12 == some 0xAA && t.mem.read? 3 == some 0x55) = true := by decide

/-! ## The decoder's classes at their boundaries -/

/-- V-D4: the threshold of step 3. -/
theorem test_needLen_with_two_bytes : iterationOf (buffered [0xAA, 0x00]) = .needLen := by decide
/-- V-D5. -/
theorem test_zero_length : iterationOf (buffered [0xAA, 0x00, 0x55]) = .discard .invalidLength 0xAA := by decide
/-- V-D25: `F = 32 = MAX_FRAME` passes. -/
theorem test_longest_length_passes : iterationOf (buffered [0xAA, 0x1C, 0x00]) = .needBody 32 := by decide
/-- V-D26. -/
theorem test_length_over_maximum : iterationOf (buffered [0xAA, 0x1D, 0x00]) = .discard .invalidLength 0xAA := by decide
/-- V-D27: `F = 256` does not wrap. -/
theorem test_length_does_not_wrap : iterationOf (buffered [0xAA, 0xFC, 0x00]) = .discard .invalidLength 0xAA := by decide
/-- V-D22. -/
theorem test_max_frame_8 :
    iterationOf (receiver 64 8 [0xAA, 0x05, 1, 2, 3, 4, 5, 0x14, 0x55]) = .discard .invalidLength 0xAA := by decide
/-- V-D11: the document's misprinted frame. -/
theorem test_misprinted_checksum :
    iterationOf (buffered [0xAA, 0x04, 0x00, 0x3C, 0x07, 0x08, 0x6D, 0x55]) = .discard .checksumMismatch 0xAA := by decide
/-- V-D20. -/
theorem test_width_3 : iterationOf (buffered [0xAA, 0x03, 0x01, 0x02, 0x03, 0x09, 0x55]) =
    .discard .unexpectedPayloadWidth 0xAA := by decide
/-- V-D32: no range check. -/
theorem test_accepts_65535 : iterationOf (buffered [0xAA, 0x04, 0xFF, 0xFF, 0xFF, 0xFF, 0x00, 0x55]) =
    .accept ⟨65535, 65535⟩ := by decide

/-! ## Witnesses: for every obligation with hypotheses, values that meet them together, at the boundaries of their ranges -/

/-- A full buffer of 8, its oldest byte in cell 1. -/
def full : State := receiver 8 8 [1, 2, 3, 4, 5, 6, 7, 8, 9]

theorem witness_DecodeOfEncodeIsTheInstruction :
    (Instr.cksum .sender []).wellFormed = true ∧ (Instr.cksum .receiver (List.replicate 255 0xFF)).wellFormed = true ∧
      (Instr.frame 0xFFFF 0 0xFF).wellFormed = true :=
  ⟨rfl, test_wellFormed_admits_255_operand_bytes, rfl⟩

/-- The longest operand its length field can name. -/
theorem witness_DecodedInstructionsAreWellFormed :
    decode (.txOp 0x100FF (List.replicate 255 0xFF) ⟨0, 0⟩) = .ok (.cksum .sender (List.replicate 255 0xFF)) := by
  show decodeCksum .sender 0x100FF (List.replicate 255 0xFF) = _
  rw [decodeCksum, List.length_replicate]
  rfl

theorem witness_OperationCodesSelectTheOperations :
    ([] : List Byte).length = (0 : Byte).toNat ∧ (List.replicate 255 (0xFF : Byte)).length = (255 : Byte).toNat ∧
      10 ≤ (0xA : BitVec 4).toNat ∧ 10 ≤ (0xF : BitVec 4).toNat ∧ ((8 : BitVec 4) = 8 ∨ (8 : BitVec 4) = 9) ∧
      (2 ≤ (2 : BitVec 4).toNat ∧ (2 : BitVec 4).toNat ≤ 7) ∧ (2 ≤ (7 : BitVec 4).toNat ∧ (7 : BitVec 4).toNat ≤ 7) :=
  ⟨rfl, List.length_replicate, by decide⟩

theorem witness_StepRefusesWhatDoesNotDecode :
    ∃ (s : State) (t : Transaction) (rest : List Transaction) (e : DecodeError), s.config.Admissible ∧ s.input = t :: rest ∧ decode t = .error e :=
  ⟨pending State.reset [.rxOp .polling 0xA0000 [] []], _, _, _, by decide, rfl, rfl⟩

theorem witness_ArrivalContextOnlyPushes :
    decode (.rxOp .arrival 0x20004 [] []) = .ok (.push .op 4) ∧
      decode (.rxOp .polling 0x00000 [] []) = .ok (.reset .receiver) ∧ (∀ b, Instr.reset .receiver ≠ .push .op b) ∧
      decode (.rxOp .polling 0x70000 [] [[1]]) = .ok (.decode [[1]]) ∧ (∀ b, Instr.decode [[1]] ≠ .push .op b) :=
  ⟨rfl, rfl, nofun, rfl, nofun⟩

theorem witness_NoArrivalInsideAnAtomicOperation :
    decode (.rxOp .polling 0x70000 [] [[1], [], [2, 3]]) = .ok (.decode [[1], [], [2, 3]]) ∧
      ([[1], [], [2, 3]] : List (List Byte)) ≠ [] := ⟨rfl, nofun⟩

theorem witness_StepRunsTheDecodedInstruction :
    ∃ (s : State) (t : Transaction) (rest : List Transaction) (i : Instr), s.config.Admissible ∧ s.input = t :: rest ∧ decode t = .ok i :=
  ⟨pending full [.arr 1, .rxOp .polling 0x40000 [] []], _, _, _, by decide, rfl, rfl⟩

theorem witness_StepWithNothingPendingStutters : full.config.Admissible ∧ full.input = [] := by decide

theorem witness_InadmissibleConfigurationIsRefused :
    ¬ Config.Admissible ⟨7, 7⟩ ∧ ¬ Config.Admissible ⟨65536, 8⟩ ∧ ¬ Config.Admissible ⟨8, 7⟩ ∧
      ¬ Config.Admissible ⟨8, 9⟩ ∧ ¬ Config.Admissible ⟨300, 259⟩ := by decide

/-- Also for `ParametersNeverChange` and `OutputsOnlyGrow`, whose one hypothesis is that the step answers a next state. -/
theorem witness_StepKeepsTheInvariant : ∃ s t, s.Inv ∧ step s = .next t ∧ t.q ≠ s.q :=
  ⟨pending full [.arr 10], _, by decide, rfl, by decide⟩

theorem witness_ParametersNeverChange : ∃ s t, step s = .next t ∧ t.count ≠ s.count :=
  ⟨pending full [.rxOp .polling 0x00000 [] []], _, rfl, by decide⟩

theorem witness_OutputsOnlyGrow : ∃ s t, step s = .next t ∧ t.rd.length = 1 ∧ t.ev.length = 1 :=
  ⟨pending (buffered frameA) [.rxOp .polling 0x60000 [] []], _, rfl, by decide, by decide⟩

theorem witness_SafeStatesStepToSafeStates :
    (pending full [.arr 1, .rxOp .polling 0x70000 [] [[0x55]], .txOp 0x90000 [] ⟨1, 2⟩]).Safe := by decide

theorem witness_OutputsInfluenceNothing :
    ∃ s s' : State, s'.config = s.config ∧ s'.mem = s.mem ∧ s'.head = s.head ∧ s'.count = s.count ∧ s'.input = s.input ∧
      s'.ev ≠ s.ev ∧ s'.tx ≠ s.tx :=
  ⟨full, { full with ev := [noise 1], tx := [0xAA] }, rfl, rfl, rfl, rfl, rfl, by decide, by decide⟩

/-- One content in two places of the ring: HEAD 0, cells 0 and 1, against HEAD 1, cells 1 and 2 with a stale cell 0. -/
theorem witness_RingIsInvisible :
    ∃ s s' : State, s.Inv ∧ s'.Inv ∧ s.view = s'.view ∧ s.head ≠ s'.head ∧ s.mem ≠ s'.mem :=
  ⟨receiver 8 8 [3, 4], dropFront 1 (receiver 8 8 [7, 3, 4]), by decide, by decide, by decide, by decide, by decide⟩

theorem witness_InstancesShareNothing :
    (∃ t, exec (.send ⟨1, 2⟩) full = .next t ∧ onSender (.send ⟨1, 2⟩) = true ∧ t.tx ≠ full.tx) ∧
      ∃ t, exec .pop full = .next t ∧ onSender .pop = false ∧ t.count ≠ full.count :=
  ⟨⟨_, rfl, rfl, by decide⟩, ⟨_, rfl, rfl, by decide⟩⟩

/-- The one hypothesis `s.Inv` of `BytesLeaveInTheOrderPushed`, `FrameArrivesByteByByte`,
`EveryIterationStopsOrProgresses`, `DecodeLeavesNothingDecidable` and `DecodeChangesOnlyTheBuffer`: an empty, a partly filled, a full and a wrapped ring, at the least
and the greatest parameters. -/
theorem witness_Inv :
    State.reset.Inv ∧ (receiver 8 8 []).Inv ∧ (buffered [0xAA, 0x04]).Inv ∧ full.Inv ∧
      (receiver 65535 258 [0xAA]).Inv ∧ (dropFront 7 full).Inv :=
  ⟨by decide, by decide, by decide, by decide, by decide, by decide⟩

theorem witness_PushAppendsOrEvicts :
    (receiver 8 8 [1, 2, 3, 4, 5, 6, 7]).Inv ∧ (receiver 8 8 [1, 2, 3, 4, 5, 6, 7]).q.length < 8 ∧ full.Inv ∧
      ¬ full.q.length < full.config.capacity := by decide

theorem witness_RingRegistersFollowPushAndPop :
    (receiver 8 8 [1, 2, 3, 4, 5, 6, 7]).Inv ∧ (receiver 8 8 [1, 2, 3, 4, 5, 6, 7]).count < 8 ∧ full.Inv ∧
      full.count = full.config.capacity ∧ (receiver 8 8 [1]).Inv ∧ 1 ≤ (receiver 8 8 [1]).count := by decide

theorem witness_PeekReturnsTheByteOrFails :
    full.q[(7 : Half).toNat]? = some 9 ∧ full.q.length ≤ (8 : Half).toNat ∧ State.reset.q.length ≤ (0 : Half).toNat := by
  decide

theorem witness_PopRemovesTheFrontOrFails :
    full.Inv ∧ full.q = 2 :: [3, 4, 5, 6, 7, 8, 9] ∧ State.reset.Inv ∧ State.reset.q = [] := by decide

theorem witness_SizeIsTheNumberOfBytes : full.Inv ∧ full.q.length = full.config.capacity := by decide

theorem witness_OverflowKeepsTheNewest :
    (pending full ([10, 11].map Transaction.arr ++ [.rxOp .polling 0x50000 [] []])).Inv ∧
      (pending full ([10, 11].map Transaction.arr ++ [.rxOp .polling 0x50000 [] []])).input =
        [10, 11].map Transaction.arr ++ [.rxOp .polling 0x50000 [] []] := by decide

theorem witness_CksumIsTheSumModulo256 :
    ([] : List Byte).length = (0 : Byte).toNat ∧ (List.replicate 255 (0xFF : Byte)).length = (255 : Byte).toNat :=
  ⟨rfl, List.length_replicate⟩

theorem witness_ChecksumIgnoresOrderAndZeros : ([1, 2, 3] : List Byte).Perm [3, 1, 2] := by decide

theorem witness_ChecksumDetectsOneCorruptedByte : (0x4F : Byte) ≠ 0x4E := by decide

theorem witness_EncodingIsABijectionOntoValidFrames :
    validFrame frameA = true ∧ encodeFrame ⟨60, 1800⟩ = encodeFrame ⟨60, 1800⟩ := by decide

theorem witness_StoppingIterationsChangeNothing :
    State.reset.q = [] ∧ (buffered [0xAA, 0x00]).q[0]? = some 0xAA ∧ (buffered [0xAA, 0x00]).q.length < 3 ∧
      Candidate 32 (buffered [0xAA, 0x1C, 0x00]).q 0x1C ∧ (buffered [0xAA, 0x1C, 0x00]).q.length < (0x1C : Byte).toNat + 4 ∧
      Candidate 32 (buffered [0xAA, 0x01, 0x10, 0x11]).q 0x01 ∧
      (buffered [0xAA, 0x01, 0x10, 0x11]).q.length < (0x01 : Byte).toNat + 4 := by decide

theorem witness_NoiseByteIsDiscarded :
    (buffered [0x55]).Inv ∧ (buffered [0x55]).q = 0x55 :: [] ∧ (0x55 : Byte) ≠ 0xAA := by decide

theorem witness_InvalidLengthDiscardsTheHeader :
    (buffered [0xAA, 0x00, 0x55]).Inv ∧ (buffered [0xAA, 0x00, 0x55]).q = 0xAA :: 0x00 :: 0x55 :: [] ∧
      (buffered [0xAA, 0x1D, 0x00]).Inv ∧ (buffered [0xAA, 0x1D, 0x00]).q = 0xAA :: 0x1D :: 0x00 :: [] ∧
      32 < (0x1D : Byte).toNat + 4 ∧ 32 < (0xFF : Byte).toNat + 4 := by decide

/-- V-D24 (shortest candidate) and V-D12. -/
theorem witness_TailMismatchDiscardsTheHeader :
    (buffered [0xAA, 0x01, 0x10, 0x11, 0x54]).Inv ∧ Candidate 32 (buffered [0xAA, 0x01, 0x10, 0x11, 0x54]).q 0x01 ∧
      (buffered [0xAA, 0x01, 0x10, 0x11, 0x54]).q[(0x01 : Byte).toNat + 3]? = some 0x54 ∧ (0x54 : Byte) ≠ 0x55 := by decide

/-- As V-D29, the longest admissible length, with `MAX_FRAME = 16`: tail right, checksum byte `00`, sum `0C`. -/
theorem witness_ChecksumMismatchDiscardsTheHeader :
    ∃ s : State, s.Inv ∧ Candidate s.config.maxFrame s.q 0x0C ∧ s.q[(0x0C : Byte).toNat + 3]? = some 0x55 ∧
      s.q[(0x0C : Byte).toNat + 2]? = some 0x00 ∧
      (((s.q.drop 1).take ((0x0C : Byte).toNat + 1)).map BitVec.toNat).sum % 256 ≠ (0x00 : Byte).toNat :=
  ⟨receiver 16 16 [0xAA, 0x0C, 0, 0, 0, 0, 0, 0, 0, 0, 0, 0, 0, 0, 0, 0x55], by decide, by decide, by decide, by decide,
    by decide⟩

/-- V-D20, V-D23. -/
theorem witness_UnexpectedWidthDiscardsTheHeader :
    ∃ s : State, s.Inv ∧ Candidate s.config.maxFrame s.q 0x01 ∧ s.q[(0x01 : Byte).toNat + 3]? = some 0x55 ∧
      s.q[(0x01 : Byte).toNat + 2]? = some 0x11 ∧
      (((s.q.drop 1).take ((0x01 : Byte).toNat + 1)).map BitVec.toNat).sum % 256 = (0x11 : Byte).toNat ∧ (0x01 : Byte) ≠ 4 :=
  ⟨buffered [0xAA, 0x01, 0x10, 0x11, 0x55], by decide, by decide, by decide, by decide, by decide, by decide⟩

theorem witness_ValidFrameIsAccepted :
    (buffered (frameA ++ [0xAA])).Inv ∧ (buffered (frameA ++ [0xAA])).q =
        0xAA :: 0x04 :: 0x00 :: 0x3C :: 0x07 :: 0x08 :: 0x4F :: 0x55 :: [0xAA] ∧
      (0x4F : Byte).toNat = (4 + (0x00 : Byte).toNat + (0x3C : Byte).toNat + (0x07 : Byte).toNat + (0x08 : Byte).toNat) % 256 := by
  decide

theorem witness_LaterBytesDoNotChangeADecision :
    ∃ (s u t : State) (p : List Byte) (r : IterResult), s.Inv ∧ u.Inv ∧ u.config = s.config ∧ u.q = s.q ++ p ∧ exec .dstep s = .next t ∧
      t.rxRes = s.rxRes ++ [.iteration r] ∧ r.stops = false :=
  ⟨buffered frameA, buffered (frameA ++ [0xAA, 0x04]), _, [0xAA, 0x04], .accept ⟨60, 1800⟩,
    by decide, by decide, by decide, by decide, rfl, by decide, by decide⟩

theorem witness_ControlStatesKnowEnough :
    (∀ kind, DState.frameAccepted ≠ .frameRejected kind) ∧ DState.frameAccepted.known 8 frameA ∧
      DState.haveHeaderNeedLen.known 8 [0xAA] ∧ DState.haveLenNeedBody.known 8 [0xAA, 0x04, 0x00] ∧
      resultFrom 8 [0xAA, 0x05, 0x00] .seekHeader = resultFrom 8 [0xAA, 0x05, 0x00] (.frameRejected .invalidLength) ∧
      resultFrom 8 frameA .seekHeader = .accept ⟨60, 1800⟩ :=
  ⟨nofun, by show validFrame _ = true; decide, by show 1 ≤ _ ∧ _ = _; decide, ⟨0x04, by decide⟩, by decide, by decide⟩

theorem witness_DecodeRepeatsDstep :
    (∃ u r, (buffered [0xAA]).Inv ∧ exec .dstep (buffered [0xAA]) = .next u ∧
        u.rxRes = (buffered [0xAA]).rxRes ++ [.iteration r] ∧ r.stops = true) ∧
      ∃ u r, (buffered (0x13 :: frameA)).Inv ∧ exec .dstep (buffered (0x13 :: frameA)) = .next u ∧
        u.rxRes = (buffered (0x13 :: frameA)).rxRes ++ [.iteration r] ∧ r.stops = false :=
  ⟨⟨_, .needLen, by decide, rfl, by decide, rfl⟩, ⟨_, .discard .noiseByte 0x13, by decide, rfl, by decide, rfl⟩⟩

theorem witness_SecondDecodeChangesNothing :
    ∃ t, (buffered (frameA ++ [0xAA])).Inv ∧ exec (.decode [[0x04]]) (buffered (frameA ++ [0xAA])) = .next t :=
  ⟨_, by decide, rfl⟩

theorem witness_RoundTripDecodesOnce : (buffered frameA).Inv ∧ (buffered frameA).q = encodeFrame ⟨60, 1800⟩ := by decide

theorem witness_NoiseBeforeAFrameIsDiscarded :
    (buffered ([0x00, 0x13, 0x55, 0xFF] ++ frameA)).Inv ∧ (∀ x ∈ ([0x00, 0x13, 0x55, 0xFF] : List Byte), x ≠ 0xAA) ∧
      (buffered ([0x00, 0x13, 0x55, 0xFF] ++ frameA)).q = [0x00, 0x13, 0x55, 0xFF] ++ encodeFrame ⟨60, 1800⟩ := by decide

theorem witness_TruncatedFrameWaits :
    ∀ k ∈ [0, 1, 2, 3, 7], (buffered (frameA.take k)).Inv ∧ k ≤ 7 ∧
      (buffered (frameA.take k)).q = (encodeFrame ⟨60, 1800⟩).take k := by decide

theorem witness_CorruptedChecksumYieldsNoReading :
    (buffered [0xAA, 0x04, 0x00, 0x3C, 0x07, 0x08, 0x4E, 0x55]).Inv ∧ 0x4E ≠ frameChecksum ⟨60, 1800⟩ ∧
      (buffered [0xAA, 0x04, 0x00, 0x3C, 0x07, 0x08, 0x4E, 0x55]).q = wireBytes 60 1800 0x4E := by decide

theorem witness_TwoFramesBehindGarbageAreRecovered :
    (buffered ([0x12, 0x55, 0x04] ++ frameA ++ frameB)).Inv ∧ (∀ x ∈ ([0x12, 0x55, 0x04] : List Byte), x ≠ 0xAA) ∧
      (buffered ([0x12, 0x55, 0x04] ++ frameA ++ frameB)).q =
        [0x12, 0x55, 0x04] ++ encodeFrame ⟨60, 1800⟩ ++ encodeFrame ⟨100, 65535⟩ := by decide

/-- As program P7, with `MAX_FRAME = 16`: 15 of the 16 bytes the false header claims, a whole frame among them. -/
theorem witness_FalseHeaderStallsDecoding :
    ∃ s : State, s.Inv ∧ Candidate s.config.maxFrame s.q 0x0C ∧ s.q.length < (0x0C : Byte).toNat + 4 ∧ s.q.length = 15 :=
  ⟨receiver 16 16 ([0xAA, 0x0C] ++ frameA ++ [0, 0, 0, 0, 0]), by decide, by decide, by decide, by decide⟩

/-- `CAPACITY - MAX_FRAME + 1` further bytes exactly: here 1, after a DECODE that left `MAX_FRAME - 1 = 7`. -/
theorem witness_DecodingInTimeNeverEvicts :
    ∃ t, (receiver 8 8 (frameA.take 7)).Inv ∧ exec (.decode []) (receiver 8 8 (frameA.take 7)) = .next t ∧ t.q.length = 7 ∧
      ([0x55] : List Byte).length + 8 ≤ 8 + 1 := ⟨_, by decide, rfl, by decide, by decide⟩

theorem witness_ReadingTravelsFromSenderToReceiver :
    ∃ (s : State) (r : Reading), s.Inv ∧ s.q = [] ∧
      s.input = .txOp 0x90000 [] r :: ((encodeFrame r).map Transaction.arr ++ [.rxOp .polling 0x70000 [] []]) :=
  ⟨pending State.reset (.txOp 0x90000 [] ⟨60, 1800⟩ :: (frameA.map Transaction.arr ++ [.rxOp .polling 0x70000 [] []])),
    ⟨60, 1800⟩, by decide, by decide, by decide⟩

end Sys2Proof.Machine.Tests
end

section
/-! The statements about every step: one closure principle over the shared operations (`StepClosed`), from which the
invariant and the bookkeeping of events follow, and that every operation commutes with what was output before it
(`appendOutputs`). -/

namespace Sys2Proof.Machine

/-! ## Predicates that every step keeps -/

/-- The shared operations that instructions are made of keep `P`. By `StepClosed.step` every step then keeps it. -/
structure StepClosed (P : State → Prop) : Prop where
  setInput : ∀ {s : State} (x : List Transaction), P s → P { s with input := x }
  respond : ∀ {s : State} (side : Side) (r : Response), P s → P (respond side r s)
  clearBuffer : ∀ {s : State}, P s → P (clearBuffer s)
  pushByte : ∀ {s : State} (b : Byte), P s → P (pushByte b s)
  dropFront : ∀ {s : State} (k : Nat), P s → P (dropFront k s)
  emitTx : ∀ {s : State} (b : Byte), P s → P (emitTx b s)
  iterate : ∀ {s : State}, P s → P (iterate s)

namespace StepClosed
variable {P : State → Prop} (hP : StepClosed P)
include hP

theorem pushAll (bs : List Byte) {s : State} (h : P s) : P (pushAll bs s) := by
  induction bs generalizing s with
  | nil => exact h
  | cons b rest ih => exact ih (hP.pushByte b h)

theorem sendBytes (bs : List Byte) {s : State} (h : P s) : P (sendBytes bs s) := by
  induction bs generalizing s with
  | nil => exact h
  | cons b rest ih => exact ih (hP.emitTx b h)

theorem decodeRun (arrivals : List (List Byte)) (n : Nat) {s : State} (h : P s) :
    P (decodeRun arrivals n s).state := by
  induction arrivals, s using decode_induction generalizing n with
  | stop arrivals s hs =>
    rw [decodeRun_of_stops _ _ hs]
    exact hP.iterate h
  | go arrivals s hs ih =>
    rw [decodeRun_of_continues _ _ hs]
    exact ih _ (hP.pushAll _ (hP.iterate h))

/-- Every instruction completes (R161), and keeps `P`. -/
theorem exec (i : Instr) {s : State} (h : P s) : ∃ t, exec i s = .next t ∧ P t := by
  cases i with
  | reset side =>
    cases side with
    | receiver => exact ⟨_, rfl, hP.respond _ _ (hP.clearBuffer h)⟩
    | sender => exact ⟨_, rfl, hP.respond _ _ h⟩
  | cksum side bytes => exact ⟨_, rfl, hP.respond _ _ h⟩
  | push port byte =>
    cases port with
    | arr => exact ⟨_, rfl, hP.pushByte _ h⟩
    | op => exact ⟨_, rfl, hP.respond _ _ (hP.pushByte _ h)⟩
  | peek offset =>
    simp only [Machine.exec, execPeek]
    cases peekByte offset.toNat s with
    | some b => exact ⟨_, rfl, hP.respond _ _ h⟩
    | none => exact ⟨_, rfl, hP.respond _ _ h⟩
  | pop =>
    simp only [Machine.exec, execPop]
    cases peekByte 0 s with
    | some b => exact ⟨_, rfl, hP.respond _ _ (hP.dropFront 1 h)⟩
    | none => exact ⟨_, rfl, hP.respond _ _ h⟩
  | size => exact ⟨_, rfl, hP.respond _ _ h⟩
  | dstep => exact ⟨_, rfl, hP.respond _ _ (hP.iterate h)⟩
  | decode arrivals => exact ⟨_, exec_decode arrivals s, hP.respond _ _ (hP.setInput _ (hP.decodeRun arrivals 0 h))⟩
  | encode reading => exact ⟨_, rfl, hP.respond _ _ h⟩
  | send reading => exact ⟨_, rfl, hP.respond _ _ (hP.sendBytes _ h)⟩
  | frame soil light checksum => exact ⟨_, rfl, hP.pushAll _ h⟩

theorem exec_next {i : Instr} {s t : State} (h : P s) (he : Machine.exec i s = .next t) : P t := by
  obtain ⟨u, hu, hPu⟩ := hP.exec i h
  cases hu.symm.trans he
  exact hPu

theorem step {s t : State} (h : P s) (hs : step s = .next t) : P t := by
  obtain rfl | ⟨i, tr, rest, -, -, he⟩ := step_cases hs
  · exact h
  · exact hP.exec_next (hP.setInput rest h) he

end StepClosed

theorem stepClosed_inv : StepClosed State.Inv where
  setInput _ h := h.congr rfl rfl rfl rfl
  respond side r h := h.respond r side
  clearBuffer h := h.clearBuffer
  pushByte b h := h.pushByte b
  dropFront k h := h.dropFront k
  emitTx _ h := h.congr rfl rfl rfl rfl
  iterate h := h.applyIteration _

/-- Settles O12: each shared operation keeps the invariant of the ring, so every step does. -/
theorem stepKeepsTheInvariant : Obligations.StepKeepsTheInvariant :=
  fun _ _ => stepClosed_inv.step

/-- Settles O10: the first test of `step` is the one of the parameters. -/
theorem inadmissibleConfigurationIsRefused : Obligations.InadmissibleConfigurationIsRefused :=
  fun _ h => if_neg h

/-! ## Every reading is announced by one ACCEPT event (R113) -/

/-- So many ACCEPT events as readings have been emitted. -/
def State.Announced (s : State) : Prop := s.ev.countP Event.isAccept = s.rd.length

theorem State.Announced.congr {s t : State} (h : s.Announced) (he : t.ev = s.ev) (hr : t.rd = s.rd) : t.Announced := by
  unfold State.Announced
  rw [he, hr]
  exact h

theorem countP_isAccept_eventOf (q : List Byte) (r : IterResult) :
    [eventOf q r].countP Event.isAccept = r.readings.length := by
  cases r <;> rfl

theorem State.Announced.applyIteration {s : State} (h : s.Announced) (r : IterResult) :
    (applyIteration r s).Announced := by
  unfold State.Announced at *
  rw [applyIteration_ev, applyIteration_rd, List.countP_append, List.length_append, h, countP_isAccept_eventOf]

theorem stepClosed_announced : StepClosed State.Announced where
  setInput _ h := h.congr rfl rfl
  respond side _ h := by cases side <;> exact State.Announced.congr h rfl rfl
  clearBuffer h := h.congr rfl rfl
  pushByte b h := h.congr (pushByte_ev _ b) (pushByte_rd _ b)
  dropFront _ h := h.congr rfl rfl
  emitTx _ h := h.congr rfl rfl
  iterate h := h.applyIteration _

/-! ## What has been output before does not matter (R10) -/

/-- The state `s` with its outputs behind those of `p`. -/
def appendOutputs (p s : State) : State :=
  { s with tx := p.tx ++ s.tx, rd := p.rd ++ s.rd, ev := p.ev ++ s.ev, rxRes := p.rxRes ++ s.rxRes,
           txRes := p.txRes ++ s.txRes }

/-- The state with nothing output yet. -/
def State.silent (s : State) : State := { s with tx := [], rd := [], ev := [], rxRes := [], txRes := [] }

theorem appendOutputs_silent (s : State) : appendOutputs s s.silent = s := by
  simp [appendOutputs, State.silent]

theorem silent_congr {s s' : State} (hc : s'.config = s.config) (hm : s'.mem = s.mem) (hh : s'.head = s.head)
    (hn : s'.count = s.count) (hi : s'.input = s.input) : s'.silent = s.silent := by
  simp [State.silent, hc, hm, hh, hn, hi]

theorem announced_silent (s : State) : s.silent.Announced := rfl

section
variable (p s : State)

theorem peekByte_appendOutputs (i : Nat) : peekByte i (appendOutputs p s) = peekByte i s := rfl

theorem iterationOf_appendOutputs : iterationOf (appendOutputs p s) = iterationOf s := rfl

theorem respond_appendOutputs (side : Side) (r : Response) :
    respond side r (appendOutputs p s) = appendOutputs p (respond side r s) := by
  cases side <;> simp [respond, appendOutputs]

theorem pushByte_appendOutputs (b : Byte) : pushByte b (appendOutputs p s) = appendOutputs p (pushByte b s) := by
  by_cases h : s.count < s.config.capacity <;> simp [pushByte, pushCell, State.cellIndex, appendOutputs, h]

theorem pushAll_appendOutputs (bs : List Byte) : pushAll bs (appendOutputs p s) = appendOutputs p (pushAll bs s) := by
  induction bs generalizing s with
  | nil => rfl
  | cons b rest ih => rw [pushAll, pushByte_appendOutputs, ih, pushAll]

theorem sendBytes_appendOutputs (bs : List Byte) :
    sendBytes bs (appendOutputs p s) = appendOutputs p (sendBytes bs s) := by
  induction bs generalizing s with
  | nil => rfl
  | cons b rest ih =>
    have hb : emitTx b (appendOutputs p s) = appendOutputs p (emitTx b s) := by simp [emitTx, appendOutputs]
    rw [sendBytes, hb, ih, sendBytes]

theorem emitEvent_appendOutputs (e : Event) : emitEvent e (appendOutputs p s) = appendOutputs p (emitEvent e s) := by
  simp [emitEvent, appendOutputs]

theorem emitReading_appendOutputs (r : Reading) :
    emitReading r (appendOutputs p s) = appendOutputs p (emitReading r s) := by
  simp [emitReading, appendOutputs]

theorem iterate_appendOutputs : iterate (appendOutputs p s) = appendOutputs p (iterate s) := by
  rw [iterate, iterationOf_appendOutputs, iterate]
  cases iterationOf s with
  | idle => exact emitEvent_appendOutputs p s _
  | needLen => exact emitEvent_appendOutputs p s _
  | needBody _ => exact emitEvent_appendOutputs p s _
  | discard kind byte => exact emitEvent_appendOutputs p (dropFront 1 s) _
  | accept r =>
    exact (congrArg (emitEvent _) (emitReading_appendOutputs p (dropFront frameBytes s) r)).trans
      (emitEvent_appendOutputs p _ _)

theorem decodeRun_appendOutputs (arrivals : List (List Byte)) (n : Nat) :
    decodeRun arrivals n (appendOutputs p s) =
      { decodeRun arrivals n s with state := appendOutputs p (decodeRun arrivals n s).state } := by
  induction arrivals, s using decode_induction generalizing n with
  | stop arrivals s h =>
    have h' : (iterationOf (appendOutputs p s)).stops = true := h
    rw [decodeRun_of_stops _ _ h, decodeRun_of_stops _ _ h', iterate_appendOutputs]
  | go arrivals s h ih =>
    have h' : (iterationOf (appendOutputs p s)).stops = false := h
    rw [decodeRun_of_continues _ _ h, decodeRun_of_continues _ _ h', iterate_appendOutputs, pushAll_appendOutputs,
      iterationOf_appendOutputs, ih]

end

/-- Every instruction does to a state the same whatever was output before it. -/
theorem exec_appendOutputs (i : Instr) (s : State) :
    ∃ t, exec i s = .next t ∧ ∀ p, exec i (appendOutputs p s) = .next (appendOutputs p t) := by
  cases i with
  | reset side =>
    cases side with
    | receiver => exact ⟨_, rfl, fun p => congrArg _ (respond_appendOutputs p (clearBuffer s) .receiver .done)⟩
    | sender => exact ⟨_, rfl, fun p => congrArg _ (respond_appendOutputs p s .sender .done)⟩
  | cksum side bytes => exact ⟨_, rfl, fun p => congrArg _ (respond_appendOutputs p s side _)⟩
  | push port byte =>
    cases port with
    | arr => exact ⟨_, rfl, fun p => congrArg _ (pushByte_appendOutputs p s byte)⟩
    | op =>
      refine ⟨_, rfl, fun p => ?_⟩
      simp only [exec, execPush, pushByte_appendOutputs, respond_appendOutputs]
  | peek offset =>
    simp only [exec, execPeek, peekByte_appendOutputs]
    cases peekByte offset.toNat s with
    | some b => exact ⟨_, rfl, fun p => congrArg _ (respond_appendOutputs p s .receiver _)⟩
    | none => exact ⟨_, rfl, fun p => congrArg _ (respond_appendOutputs p s .receiver _)⟩
  | pop =>
    simp only [exec, execPop, peekByte_appendOutputs]
    cases peekByte 0 s with
    | some b => exact ⟨_, rfl, fun p => congrArg _ (respond_appendOutputs p (dropFront 1 s) .receiver _)⟩
    | none => exact ⟨_, rfl, fun p => congrArg _ (respond_appendOutputs p s .receiver _)⟩
  | size => exact ⟨_, rfl, fun p => congrArg _ (respond_appendOutputs p s .receiver _)⟩
  | dstep =>
    refine ⟨_, rfl, fun p => ?_⟩
    rw [exec_dstep, iterate_appendOutputs, iterationOf_appendOutputs, respond_appendOutputs]
  | decode arrivals =>
    refine ⟨_, exec_decode arrivals s, fun p => ?_⟩
    rw [exec_decode, decodeRun_appendOutputs, ← respond_appendOutputs]
    rfl
  | encode reading => exact ⟨_, rfl, fun p => congrArg _ (respond_appendOutputs p s .sender _)⟩
  | send reading =>
    refine ⟨_, rfl, fun p => ?_⟩
    simp only [exec, execSend, sendBytes_appendOutputs, respond_appendOutputs]
  | frame soil light checksum =>
    refine ⟨_, rfl, fun p => ?_⟩
    simp only [exec, execFrame, pushAll_appendOutputs]

/-- An instruction appends to the outputs what it outputs when started silent. -/
theorem exec_eq_appendOutputs (i : Instr) (s : State) :
    ∃ u, exec i s.silent = .next u ∧ ∀ s' : State, s'.silent = s.silent → exec i s' = .next (appendOutputs s' u) := by
  obtain ⟨u, hu, hp⟩ := exec_appendOutputs i s.silent
  refine ⟨u, hu, fun s' hs => ?_⟩
  rw [← hp s', ← hs, appendOutputs_silent]

/-- Settles O16: both runs append what the run from the silent state outputs, and have its ring. -/
theorem outputsInfluenceNothing : Obligations.OutputsInfluenceNothing := by
  intro i s s' hc hm hh hn hi
  obtain ⟨u, -, hu⟩ := exec_eq_appendOutputs i s
  exact ⟨_, _, u.tx, u.rd, u.ev, u.rxRes, u.txRes, hu s rfl, hu s' (silent_congr hc hm hh hn hi),
    rfl, rfl, rfl, rfl, rfl, rfl, rfl, rfl, rfl, rfl, rfl, rfl, rfl, rfl⟩

/-- Settles O15: a step appends what its instruction outputs when started silent, and there readings and ACCEPT events
are counted from zero. -/
theorem outputsOnlyGrow : Obligations.OutputsOnlyGrow := by
  intro s t h
  obtain rfl | ⟨i, tr, rest, -, -, he⟩ := step_cases h
  · exact ⟨[], [], [], [], [], by simp⟩
  · obtain ⟨u, hu, ha⟩ := exec_eq_appendOutputs i { s with input := rest }
    cases he.symm.trans (ha _ rfl)
    exact ⟨u.tx, u.rd, u.ev, u.rxRes, u.txRes, rfl, rfl, rfl, rfl, rfl,
      stepClosed_announced.exec_next (announced_silent _) hu⟩

end Sys2Proof.Machine
end

section
/-! The statements about the state: what `SameView` states do (nothing of the ring shows but `Q`), the frame between the
two instances, the constants, and what the ring registers say. -/

namespace Sys2Proof.Machine

/-! ## PEEK and POP by what there is to read (R91, R92) -/

theorem exec_peek_of_some {s : State} {offset : Half} {b : Byte} (h : peekByte offset.toNat s = some b) :
    exec (.peek offset) s = .next (respond .receiver (.byte b) s) := by
  simp only [exec, execPeek, h]

theorem exec_peek_of_none {s : State} {offset : Half} (h : peekByte offset.toNat s = none) :
    exec (.peek offset) s = .next (respond .receiver .outOfRange s) := by
  simp only [exec, execPeek, h, reportFailure]

theorem exec_pop_of_some {s : State} {b : Byte} (h : peekByte 0 s = some b) :
    exec .pop s = .next (respond .receiver (.byte b) (dropFront 1 s)) := by
  simp only [exec, execPop, h]

theorem exec_pop_of_none {s : State} (h : peekByte 0 s = none) :
    exec .pop s = .next (respond .receiver .empty s) := by
  simp only [exec, execPop, h, reportFailure]

/-! ## The ring is invisible (R24) -/

/-- Two invariant states that differ at most in the ring registers behind one content. -/
structure SameView (s s' : State) : Prop where
  left : s.Inv
  right : s'.Inv
  view : s.view = s'.view

namespace SameView
variable {s s' : State} (h : SameView s s')
include h

/-- An operation that keeps the invariant and whose effect on the view is a function of the view. -/
theorem map {f : State → State} (g : View → View) (hi : ∀ {s : State}, s.Inv → (f s).Inv)
    (hv : ∀ {s : State}, s.Inv → (f s).view = g s.view) : SameView (f s) (f s') :=
  ⟨hi h.left, hi h.right, by rw [hv h.left, hv h.right, h.view]⟩

theorem config_eq : s.config = s'.config := congrArg View.config h.view

theorem q_eq : s.q = s'.q := congrArg View.q h.view

theorem size_eq : s.size = s'.size := by
  simpa [State.size] using congrArg List.length h.q_eq

theorem peekByte_eq (i : Nat) : peekByte i s = peekByte i s' := by
  rw [Machine.peekByte_eq, Machine.peekByte_eq, h.q_eq]

theorem iterationOf_eq : iterationOf s = iterationOf s' := iterationOf_congr h.config_eq h.q_eq

theorem respond (side : Side) (r : Response) : SameView (respond side r s) (respond side r s') := by
  cases side with
  | receiver =>
    exact h.map (fun v => { v with rxRes := v.rxRes ++ [r] }) (stepClosed_inv.respond _ _)
      fun _ => view_respond_receiver _ r
  | sender =>
    exact h.map (fun v => { v with txRes := v.txRes ++ [r] }) (stepClosed_inv.respond _ _)
      fun _ => by simp [State.view]

theorem clearBuffer : SameView (clearBuffer s) (clearBuffer s') :=
  h.map (fun v => { v with q := [] }) stepClosed_inv.clearBuffer fun _ => by simp [State.view, q_clearBuffer]

theorem dropFront (k : Nat) : SameView (dropFront k s) (dropFront k s') :=
  h.map (fun v => { v with q := v.q.drop k }) (stepClosed_inv.dropFront k) fun _ => by simp [State.view, q_dropFront]

theorem pushAll (bs : List Byte) : SameView (pushAll bs s) (pushAll bs s') :=
  h.map (fun v => { v with q := (v.q ++ bs).drop (v.q.length + bs.length - v.config.capacity) })
    (stepClosed_inv.pushAll bs) fun hs => view_pushAll hs bs

theorem sendBytes (bs : List Byte) : SameView (sendBytes bs s) (sendBytes bs s') :=
  h.map (fun v => { v with tx := v.tx ++ bs }) (stepClosed_inv.sendBytes bs) fun _ => by simp [State.view]

theorem arriveNext (bs : List Byte) : SameView (arriveNext bs s) (arriveNext bs s') :=
  h.map (fun v => { v with input := bs.map Transaction.arr ++ v.input }) (stepClosed_inv.setInput _)
    fun _ => by simp [State.view]

theorem iterate : SameView (iterate s) (iterate s') := by
  unfold Machine.iterate
  rw [← h.iterationOf_eq]
  generalize iterationOf s = r
  exact h.map (fun v => { v with q := v.q.drop (removed r), rd := v.rd ++ r.readings, ev := v.ev ++ [eventOf v.q r] })
    (fun hs => hs.applyIteration r) fun _ => by simp [State.view]

/-- The two loops of a DECODE go through iterations with the same results, and stop together. -/
theorem decodeRun (arrivals : List (List Byte)) (n : Nat) :
    SameView (decodeRun arrivals n s).state (decodeRun arrivals n s').state ∧
      (Machine.decodeRun arrivals n s).readings = (Machine.decodeRun arrivals n s').readings ∧
      (Machine.decodeRun arrivals n s).leftover = (Machine.decodeRun arrivals n s').leftover := by
  induction arrivals, s using decode_induction generalizing n s' with
  | stop arrivals s hs =>
    have hs' : (iterationOf s').stops = true := h.iterationOf_eq ▸ hs
    rw [decodeRun_of_stops _ _ hs, decodeRun_of_stops _ _ hs']
    exact ⟨h.iterate, rfl, rfl⟩
  | go arrivals s hs ih =>
    have hs' : (iterationOf s').stops = false := h.iterationOf_eq ▸ hs
    rw [decodeRun_of_continues _ _ hs, decodeRun_of_continues _ _ hs', ← h.iterationOf_eq]
    exact ih (h.iterate.pushAll _) _

/-- The simulation: every instruction completes on both states, and the two stay in one view. -/
theorem exec (i : Instr) : ∃ t t', exec i s = .next t ∧ Machine.exec i s' = .next t' ∧ SameView t t' := by
  cases i with
  | reset side =>
    cases side with
    | receiver => exact ⟨_, _, rfl, rfl, h.clearBuffer.respond _ _⟩
    | sender => exact ⟨_, _, rfl, rfl, h.respond _ _⟩
  | cksum side bytes => exact ⟨_, _, rfl, rfl, h.respond _ _⟩
  | push port byte =>
    cases port with
    | arr => exact ⟨_, _, rfl, rfl, h.pushAll [byte]⟩
    | op => exact ⟨_, _, rfl, rfl, (h.pushAll [byte]).respond _ _⟩
  | peek offset =>
    have hp := h.peekByte_eq offset.toNat
    cases hs : peekByte offset.toNat s with
    | some b => exact ⟨_, _, exec_peek_of_some hs, exec_peek_of_some (hp ▸ hs), h.respond _ _⟩
    | none => exact ⟨_, _, exec_peek_of_none hs, exec_peek_of_none (hp ▸ hs), h.respond _ _⟩
  | pop =>
    have hp := h.peekByte_eq 0
    cases hs : peekByte 0 s with
    | some b => exact ⟨_, _, exec_pop_of_some hs, exec_pop_of_some (hp ▸ hs), (h.dropFront 1).respond _ _⟩
    | none => exact ⟨_, _, exec_pop_of_none hs, exec_pop_of_none (hp ▸ hs), h.respond _ _⟩
  | size => exact ⟨_, _, rfl, rfl, h.size_eq ▸ h.respond _ _⟩
  | dstep => exact ⟨_, _, exec_dstep s, exec_dstep s', h.iterationOf_eq ▸ h.iterate.respond _ _⟩
  | decode arrivals =>
    obtain ⟨hstate, hreadings, hleftover⟩ := h.decodeRun arrivals 0
    refine ⟨_, _, exec_decode arrivals s, exec_decode arrivals s', ?_⟩
    rw [hreadings, hleftover]
    exact (hstate.arriveNext _).respond _ _
  | encode reading => exact ⟨_, _, rfl, rfl, h.respond _ _⟩
  | send reading => exact ⟨_, _, rfl, rfl, (h.sendBytes _).respond _ _⟩
  | frame soil light checksum => exact ⟨_, _, rfl, rfl, h.pushAll _⟩

end SameView

/-- Settles O17: on states with one view every shared operation has the same effect on the view (`SameView.exec`). -/
theorem ringIsInvisible : Obligations.RingIsInvisible := by
  intro i s s' hs hs' hv
  obtain ⟨t, t', ht, ht', h⟩ := SameView.exec ⟨hs, hs', hv⟩ i
  exact ⟨t, t', ht, ht', h.view⟩

/-! ## The construction parameters (R22) -/

theorem stepClosed_config (c : Config) : StepClosed (fun s => s.config = c) where
  setInput _ h := h
  respond side _ h := by cases side <;> exact h
  clearBuffer h := h
  pushByte b h := (pushByte_config _ b).trans h
  dropFront _ h := h
  emitTx _ h := h
  iterate h := (applyIteration_config _ _).trans h

/-- Settles O14: no shared operation writes the parameters. -/
theorem parametersNeverChange : Obligations.ParametersNeverChange :=
  fun s _ => (stepClosed_config s.config).step rfl

/-! ## Sender and receiver share nothing (R20, R50) -/

section
variable {i : Instr} {s t : State} (h : exec i s = .next t)
include h

theorem receiver_unchanged_of_onSender (hi : onSender i = true) :
    t.mem = s.mem ∧ t.head = s.head ∧ t.count = s.count ∧ t.rd = s.rd ∧ t.ev = s.ev ∧ t.rxRes = s.rxRes ∧
      t.input = s.input := by
  cases i with
  | reset side =>
    cases side with
    | receiver => cases hi
    | sender => cases h; simp
  | cksum side bytes =>
    cases side with
    | receiver => cases hi
    | sender => cases h; simp
  | encode reading => cases h; simp
  | send reading => cases h; simp
  | push | peek | pop | size | dstep | decode | frame => cases hi

theorem sender_unchanged_of_onReceiver (hi : onSender i = false) : t.tx = s.tx ∧ t.txRes = s.txRes := by
  cases i with
  | reset side =>
    cases side with
    | receiver => cases h; simp
    | sender => cases hi
  | cksum side bytes =>
    cases side with
    | receiver => cases h; simp
    | sender => cases hi
  | push port byte =>
    cases port with
    | arr => cases h; simp
    | op => cases h; simp
  | peek offset =>
    cases hp : peekByte offset.toNat s with
    | some b => cases (exec_peek_of_some hp).symm.trans h; simp
    | none => cases (exec_peek_of_none hp).symm.trans h; simp
  | pop =>
    cases hp : peekByte 0 s with
    | some b => cases (exec_pop_of_some hp).symm.trans h; simp
    | none => cases (exec_pop_of_none hp).symm.trans h; simp
  | size => cases h; simp
  | dstep => cases h; simp [iterate]
  | decode arrivals => cases (exec_decode arrivals s).symm.trans h; simp
  | frame soil light checksum =>
    obtain rfl : pushAll (wireBytes soil light checksum) s = t := Host.Outcome.next.inj h
    simp
  | encode | send => cases hi

end

/-- Settles O18: the frame of the sender's instructions and the frame of the receiver's. -/
theorem instancesShareNothing : Obligations.InstancesShareNothing :=
  fun _ _ _ h => ⟨receiver_unchanged_of_onSender h, sender_unchanged_of_onReceiver h⟩

/-! ## The ring registers (R25) -/

theorem pushByte_of_lt {s : State} (b : Byte) (h : s.count < s.config.capacity) :
    pushByte b s = { s with mem := s.mem.write (s.cellIndex s.count) b, count := s.count + 1 } := by
  simp only [pushByte, pushCell, if_pos h]

theorem pushByte_of_full {s : State} (b : Byte) (h : s.count = s.config.capacity) :
    pushByte b s = { s with mem := s.mem.write s.head b, head := s.cellIndex 1 } := by
  simp only [pushByte, pushCell, if_neg h.not_lt]

theorem peekByte_of_lt {s : State} {i : Nat} (h : i < s.count) : peekByte i s = some (s.byteAt i) := if_pos h

theorem peekByte_of_le {s : State} {i : Nat} (h : s.count ≤ i) : peekByte i s = none := if_neg h.not_gt

/-- Settles O22: PUSH by whether the buffer is full, POP by what it reads at the front. -/
theorem ringRegistersFollowPushAndPop : Obligations.RingRegistersFollowPushAndPop := by
  intro s b _
  refine ⟨fun hlt => ⟨_, rfl, ?_⟩, fun hfull => ⟨_, rfl, ?_⟩, fun hpos => ?_⟩
  · rw [pushByte_of_lt b hlt]
    exact ⟨Memory.read?_write_same _ _ _, rfl, rfl⟩
  · rw [pushByte_of_full b hfull]
    exact ⟨Memory.read?_write_same _ _ _, rfl, hfull⟩
  · exact ⟨_, exec_pop_of_some (peekByte_of_lt hpos), rfl, rfl, fun _ => rfl⟩

/-! ## The reset state and the predicates of the content (R23, R33) -/

/-- Settles O11: with `COUNT` 0 there is no byte to read at any offset. -/
theorem resetStateIsEmpty : Obligations.ResetStateIsEmpty := by
  have hnone (i : Nat) : peekByte i State.reset = none := peekByte_of_le (Nat.zero_le i)
  exact ⟨by decide, rfl, rfl, rfl, rfl, rfl, rfl, rfl, fun _ => exec_peek_of_none (hnone _),
    exec_pop_of_none (hnone 0)⟩

/-- Settles O27: `COUNT` is the length of `Q` (`State.q_length`). -/
theorem predicatesAreDerivedFromTheContent : Obligations.PredicatesAreDerivedFromTheContent := by
  intro s
  refine ⟨s.q_length.symm, ?_, ?_⟩
  · rw [← List.length_eq_zero_iff, s.q_length, State.isEmpty, decide_eq_true_iff]
  · rw [s.q_length, State.isFull, decide_eq_true_iff]

end Sys2Proof.Machine
end

section
/-! The statements of 20_memory.md: in which order operations and arrivals take effect (R49, R50), and that a decision of
the decoder does not depend on what is buffered behind (R52). -/

namespace Sys2Proof.Machine

/-! ## Bytes leave in the order they were pushed (R50) -/

/-- `t` holds a suffix of the content of `s` with `pushed` behind it. -/
def LeavesInOrder (s : State) (pushed : List Byte) (t : State) : Prop := ∃ k, t.q = (s.q ++ pushed).drop k

namespace LeavesInOrder
variable {s t : State} {pushed : List Byte}

theorem refl (s : State) : LeavesInOrder s [] s := ⟨0, by simp⟩

theorem respond (h : LeavesInOrder s pushed t) (side : Side) (r : Response) :
    LeavesInOrder s pushed (respond side r t) := by
  simpa [LeavesInOrder] using h

theorem clearBuffer (s : State) : LeavesInOrder s [] (clearBuffer s) := ⟨s.q.length, by simp [q_clearBuffer]⟩

theorem dropFront (k : Nat) (s : State) : LeavesInOrder s [] (dropFront k s) := ⟨k, by simp [q_dropFront]⟩

theorem sendBytes (bs : List Byte) (s : State) : LeavesInOrder s [] (sendBytes bs s) := ⟨0, by simp⟩

theorem iterate (s : State) : LeavesInOrder s [] (iterate s) := ⟨removed (iterationOf s), by simp [Machine.iterate]⟩

theorem pushAll (hs : s.Inv) (bs : List Byte) : LeavesInOrder s bs (pushAll bs s) := ⟨_, q_pushAll hs bs⟩

/-- An instruction that answers `t` has the witnesses the obligation asks for. -/
theorem exists_exec {i : Instr} {C : List Byte → Prop} (h : LeavesInOrder s pushed t) (he : exec i s = .next t)
    (hc : C pushed) : ∃ t k pushed, exec i s = .next t ∧ t.q = (s.q ++ pushed).drop k ∧ C pushed :=
  let ⟨k, hk⟩ := h
  ⟨t, k, pushed, he, hk, hc⟩

end LeavesInOrder

/-- Settles O19: each shared operation leaves a suffix of the old content and of what it pushed (`LeavesInOrder`); a DECODE
pushes the first entries of its schedule (`decodeRun_content`). -/
theorem bytesLeaveInTheOrderPushed : Obligations.BytesLeaveInTheOrderPushed := by
  intro i s hs
  cases i with
  | reset side =>
    cases side with
    | receiver => exact ((LeavesInOrder.clearBuffer s).respond _ _).exists_exec rfl rfl
    | sender => exact ((LeavesInOrder.refl s).respond _ _).exists_exec rfl rfl
  | cksum side bytes => exact ((LeavesInOrder.refl s).respond _ _).exists_exec rfl rfl
  | push port byte =>
    cases port with
    | arr => exact (LeavesInOrder.pushAll hs [byte]).exists_exec rfl rfl
    | op => exact ((LeavesInOrder.pushAll hs [byte]).respond _ _).exists_exec rfl rfl
  | peek offset =>
    cases hp : peekByte offset.toNat s with
    | some b => exact ((LeavesInOrder.refl s).respond _ _).exists_exec (exec_peek_of_some hp) rfl
    | none => exact ((LeavesInOrder.refl s).respond _ _).exists_exec (exec_peek_of_none hp) rfl
  | pop =>
    cases hp : peekByte 0 s with
    | some b => exact ((LeavesInOrder.dropFront 1 s).respond _ _).exists_exec (exec_pop_of_some hp) rfl
    | none => exact ((LeavesInOrder.refl s).respond _ _).exists_exec (exec_pop_of_none hp) rfl
  | size => exact ((LeavesInOrder.refl s).respond _ _).exists_exec rfl rfl
  | dstep => exact ((LeavesInOrder.iterate s).respond _ _).exists_exec rfl rfl
  | decode arrivals =>
    obtain ⟨m, k, hq, -, -⟩ := decodeRun_content arrivals 0 hs
    exact ⟨_, k, _, exec_decode arrivals s, by simpa using hq, m, rfl⟩
  | encode reading => exact ((LeavesInOrder.refl s).respond _ _).exists_exec rfl rfl
  | send reading => exact ((LeavesInOrder.sendBytes _ s).respond _ _).exists_exec rfl rfl
  | frame soil light checksum => exact (LeavesInOrder.pushAll hs _).exists_exec rfl rfl

/-! ## Arrivals during an operation (R49, R174) -/

theorem decodeReceiver_ok {context : Context} {cmd : Cmd} {opData : List Byte} {during : List (List Byte)} {i : Instr}
    (h : decodeReceiver context cmd opData during = .ok i) :
    decodeReceiverCmd cmd opData during = .ok i ∧ mayIssue context i = true ∧ mayInterleave i during = true := by
  unfold decodeReceiver at h
  split at h
  · cases h
  · rename_i j hj
    split_ifs at h with h1 h2
    cases h
    exact ⟨hj, by simpa using h1, by simpa using h2⟩

/-- The schedule of a DECODE is what arrives during its transaction. -/
theorem arrivals_of_decodeReceiverCmd {cmd : Cmd} {opData : List Byte} {during arrivals : List (List Byte)}
    (h : decodeReceiverCmd cmd opData during = .ok (.decode arrivals)) : arrivals = during := by
  unfold decodeReceiverCmd at h
  split at h
  case h_2 =>
    unfold decodeCksum at h
    split_ifs at h
    cases h
  case h_8 =>
    cases h
    rfl
  all_goals cases h

theorem exists_decode_of_mayInterleave {i : Instr} {during : List (List Byte)} (h : mayInterleave i during = true)
    (hne : during ≠ []) : ∃ arrivals, i = .decode arrivals := by
  cases i with
  | decode arrivals => exact ⟨arrivals, rfl⟩
  | reset | cksum | push | peek | pop | size | dstep | encode | send | frame =>
    exact absurd (List.isEmpty_iff.mp h) hne

/-- Settles O7: only a DECODE may interleave, and it takes the arrivals as its schedule. -/
theorem noArrivalInsideAnAtomicOperation : Obligations.NoArrivalInsideAnAtomicOperation := by
  intro c cmd d during i h hne
  obtain ⟨hcmd, -, hmay⟩ := decodeReceiver_ok h
  obtain ⟨arrivals, rfl⟩ := exists_decode_of_mayInterleave hmay hne
  rw [arrivals_of_decodeReceiverCmd hcmd]

/-! ## A frame from the wire (R44) -/

theorem wireBytes_length (soil light : Half) (c : Byte) : (wireBytes soil light c).length = 8 := rfl

/-- Bytes that arrive before all that is pending are a PUSHSEQ (R73). -/
theorem run_arriveNext {s : State} (ha : s.config.Admissible) (bs : List Byte) :
    run bs.length (arriveNext bs s) = .next (pushAll bs s) := by
  have hinput : (pushAll bs s).input = s.input := pushAll_input s bs
  rw [run_arrivals bs (s := arriveNext bs s) ha rfl, arriveNext, pushAll_with_input, ← hinput]

/-- Settles O35: FRAME is `pushAll` of its eight bytes, and so are eight arrivals (`run_arriveNext`). -/
theorem frameArrivesByteByByte : Obligations.FrameArrivesByteByByte := by
  intro s soil light c hs
  have hrun := run_arriveNext hs.admissible (wireBytes soil light c)
  rw [wireBytes_length] at hrun
  exact ⟨_, rfl, view_pushAll hs _, fun a ha => read?_pushAll_of_not_storesTo hs _ ha, hrun⟩

/-! ## Bytes buffered behind (R52, R117, R120) -/

theorem getElem?_append_of_eq_some {q : List Byte} {i : Nat} {b : Byte} (h : q[i]? = some b) (p : List Byte) :
    (q ++ p)[i]? = some b := by
  rw [List.getElem?_append_left (List.getElem?_eq_some_iff.mp h).1, h]

theorem Candidate.append {maxFrame : Nat} {q : List Byte} {len : Byte} (h : Candidate maxFrame q len) (p : List Byte) :
    Candidate maxFrame (q ++ p) len := by
  obtain ⟨hlength, hheader, hlen, hvalid⟩ := h
  exact ⟨by rw [List.length_append]; omega, getElem?_append_of_eq_some hheader p, getElem?_append_of_eq_some hlen p,
    hvalid⟩

/-- Steps 7 to 10 read the frame and nothing behind it. -/
theorem fromNeedBody_append {q : List Byte} {len last c : Byte} (h : q[1]? = some len)
    (hl : q[len.toNat + 3]? = some last) (hc : q[len.toNat + 2]? = some c) (p : List Byte) :
    fromNeedBody (q ++ p) = fromNeedBody q := by
  have hfull : len.toNat + 3 < q.length := (List.getElem?_eq_some_iff.mp hl).1
  rw [fromNeedBody_full h hl hc, fromNeedBody_full (getElem?_append_of_eq_some h p) (getElem?_append_of_eq_some hl p)
      (getElem?_append_of_eq_some hc p),
    List.drop_append_of_le_length (by omega), List.take_append_of_le_length (by rw [List.length_drop]; omega),
    List.take_append_of_le_length (by omega)]

/-- An iteration that does not stop sees the same with more bytes behind. -/
theorem fromSeek_append {maxFrame : Nat} {q : List Byte} (h : (fromSeek maxFrame q).stops = false) (p : List Byte) :
    fromSeek maxFrame (q ++ p) = fromSeek maxFrame q := by
  obtain ⟨-, hr⟩ | ⟨d, rest, rfl, hd, hr⟩ | ⟨-, -, hr⟩ | ⟨len, x, rest, rfl, hv, hr⟩ | ⟨len, -, -, hr⟩ |
    ⟨len, last, c, hcand, hl, hc⟩ := fromSeek_cases maxFrame q
  · simp [hr, IterResult.stops] at h
  · exact (fromSeek_noise maxFrame (rest ++ p) hd).trans hr.symm
  · simp [hr, IterResult.stops] at h
  · exact (fromSeek_invalidLength (rest ++ p) hv).trans hr.symm
  · simp [hr, IterResult.stops] at h
  · obtain ⟨-, -, hlen, -⟩ := id hcand
    rw [fromSeek_candidate hcand, fromSeek_candidate (hcand.append p), fromNeedBody_append hlen hl hc]

/-- Settles O44: the result is that of `fromSeek_append`, and the bytes it removes are in the shorter content. -/
theorem laterBytesDoNotChangeADecision : Obligations.LaterBytesDoNotChangeADecision := by
  intro s u t p r _ _ hconfig hq ht hres hr
  cases (exec_dstep s).symm.trans ht
  obtain rfl : iterationOf s = r := by simpa [iterate] using hres
  have hsame : iterationOf u = iterationOf s := by
    rw [iterationOf_eq, hconfig, hq]
    exact fromSeek_append hr p
  have hle : removed (iterationOf s) ≤ s.q.length := by
    rw [State.q_length]
    exact removed_le_count s
  refine ⟨_, exec_dstep u, by simp [iterate, hsame], ?_⟩
  simp [iterate, hsame, hq, List.drop_append_of_le_length hle]

/-! ## The step (R49, R50) -/

/-- Settles O8: `step` takes the head of `input`. -/
theorem stepRunsTheDecodedInstruction : Obligations.StepRunsTheDecodedInstruction := by
  intro s t rest i hadm hinput hdecode
  simp only [step, if_pos hadm, takeTransaction, hinput, hdecode]

end Sys2Proof.Machine
end

section
/-! The statements of 30_encoding.md: what each operation code decodes to (R70, R71), that decoding undoes encoding, and
that encoding a reading is a bijection onto the valid frames (R65). -/

namespace Sys2Proof.Machine

/-! ## The two operation ports (R70) -/

theorem decode_rxOp_of_ok {cmd : Cmd} {d : List Byte} {during : List (List Byte)} {i : Instr}
    (h : decodeReceiverCmd cmd d during = .ok i) (hmay : mayInterleave i during = true) :
    decode (.rxOp .polling cmd d during) = .ok i := by
  simp [decode, decodeReceiver, h, mayIssue, hmay]

/-- A code the receiver does not have is refused before context and arrivals are looked at. -/
theorem decode_rxOp_of_error {cmd : Cmd} {d : List Byte} {during : List (List Byte)} {e : DecodeError}
    (h : decodeReceiverCmd cmd d during = .error e) (c : Context) : decode (.rxOp c cmd d during) = .error e := by
  simp only [decode, decodeReceiver, h]

theorem decodeCksum_of_length {cmd : Cmd} {d : List Byte} (h : d.length = (argByte cmd).toNat) (side : Side) :
    decodeCksum side cmd d = .ok (.cksum side d) := if_pos h

theorem decodeCksum_ok {side : Side} {cmd : Cmd} {d : List Byte} {i : Instr} (h : decodeCksum side cmd d = .ok i) :
    i = .cksum side d ∧ d.length = (argByte cmd).toNat := by
  unfold decodeCksum at h
  split_ifs at h with hlength
  cases h
  exact ⟨rfl, hlength⟩

/-! ## What each operation code selects, for every value of the bits it ignores (R71) -/

section
variable (arg : Half) (d : List Byte)

theorem decode_rx_reset : decode (.rxOp .polling (makeCmd 0x0 arg) d []) = .ok (.reset .receiver) :=
  decode_rxOp_of_ok (by simp [decodeReceiverCmd]) rfl

theorem decode_rx_cksum (h : d.length = (loByte arg).toNat) :
    decode (.rxOp .polling (makeCmd 0x1 arg) d []) = .ok (.cksum .receiver d) :=
  decode_rxOp_of_ok (by simp [decodeReceiverCmd, decodeCksum_of_length, h]) rfl

theorem decode_rx_push : decode (.rxOp .polling (makeCmd 0x2 arg) d []) = .ok (.push .op (loByte arg)) :=
  decode_rxOp_of_ok (by simp [decodeReceiverCmd]) rfl

theorem decode_rx_peek : decode (.rxOp .polling (makeCmd 0x3 arg) d []) = .ok (.peek arg) :=
  decode_rxOp_of_ok (by simp [decodeReceiverCmd]) rfl

theorem decode_rx_pop : decode (.rxOp .polling (makeCmd 0x4 arg) d []) = .ok .pop :=
  decode_rxOp_of_ok (by simp [decodeReceiverCmd]) rfl

theorem decode_rx_size : decode (.rxOp .polling (makeCmd 0x5 arg) d []) = .ok .size :=
  decode_rxOp_of_ok (by simp [decodeReceiverCmd]) rfl

theorem decode_rx_dstep : decode (.rxOp .polling (makeCmd 0x6 arg) d []) = .ok .dstep :=
  decode_rxOp_of_ok (by simp [decodeReceiverCmd]) rfl

theorem decode_rx_decode (during : List (List Byte)) :
    decode (.rxOp .polling (makeCmd 0x7 arg) d during) = .ok (.decode during) :=
  decode_rxOp_of_ok (by simp [decodeReceiverCmd]) rfl

variable (r : Reading)

theorem decode_tx_reset : decode (.txOp (makeCmd 0x0 arg) d r) = .ok (.reset .sender) := by
  simp [decode, decodeSenderCmd]

theorem decode_tx_cksum (h : d.length = (loByte arg).toNat) :
    decode (.txOp (makeCmd 0x1 arg) d r) = .ok (.cksum .sender d) := by
  simp [decode, decodeSenderCmd, decodeCksum_of_length, h]

theorem decode_tx_encode : decode (.txOp (makeCmd 0x8 arg) d r) = .ok (.encode r) := by
  simp [decode, decodeSenderCmd]

theorem decode_tx_send : decode (.txOp (makeCmd 0x9 arg) d r) = .ok (.send r) := by
  simp [decode, decodeSenderCmd]

end

/-! ## Refused codes (D20) -/

section
variable {cmd : Cmd}

theorem decodeReceiverCmd_unassigned (h : 10 ≤ (opCode cmd).toNat) (d : List Byte) (during : List (List Byte)) :
    decodeReceiverCmd cmd d during = .error .unassignedOpCode := by
  unfold decodeReceiverCmd
  split
  case h_11 => rfl
  all_goals omega

theorem decodeSenderCmd_unassigned (h : 10 ≤ (opCode cmd).toNat) (d : List Byte) (r : Reading) :
    decodeSenderCmd cmd d r = .error .unassignedOpCode := by
  unfold decodeSenderCmd
  split
  case h_11 => rfl
  all_goals omega

/-- ENCODE and SEND on a receiver. -/
theorem decodeReceiverCmd_wrongInstance (h : opCode cmd = 8 ∨ opCode cmd = 9) (d : List Byte)
    (during : List (List Byte)) : decodeReceiverCmd cmd d during = .error .wrongInstance := by
  obtain h | h := h <;> simp [decodeReceiverCmd, h]

/-- The codes from PUSH to DECODE on a sender. -/
theorem decodeSenderCmd_wrongInstance (h : 2 ≤ (opCode cmd).toNat ∧ (opCode cmd).toNat ≤ 7) (d : List Byte)
    (r : Reading) : decodeSenderCmd cmd d r = .error .wrongInstance := by
  obtain ⟨hlow, hhigh⟩ := h
  unfold decodeSenderCmd
  interval_cases (opCode cmd).toNat <;> rfl

end

/-- Settles O4: one equation per code and port, and the four refusals. -/
theorem operationCodesSelectTheOperations : Obligations.OperationCodesSelectTheOperations := by
  refine ⟨fun arg d during r => ?_, fun ignored b d => ?_, fun ignored n d r hlength => ?_,
    fun op arg c d during r => ?_⟩
  · exact ⟨decode_rx_reset arg d, decode_tx_reset arg d r, decode_rx_peek arg d, decode_rx_pop arg d,
      decode_rx_size arg d, decode_rx_dstep arg d, decode_rx_decode arg d during, decode_tx_encode arg d r,
      decode_tx_send arg d r⟩
  · rw [decode_rx_push, loByte_append]
  · have hlow : d.length = (loByte (ignored ++ n)).toNat := by rw [loByte_append, hlength]
    exact ⟨decode_rx_cksum _ d hlow, decode_tx_cksum _ d r hlow⟩
  · refine ⟨fun h => ?_, fun h => ?_, fun h => ?_⟩ <;> rw [← opCode_makeCmd op arg] at h
    · exact ⟨decode_rxOp_of_error (decodeReceiverCmd_unassigned h d during) c, decodeSenderCmd_unassigned h d r⟩
    · exact decode_rxOp_of_error (decodeReceiverCmd_wrongInstance h d during) c
    · exact decodeSenderCmd_wrongInstance h d r

/-! ## Decoding undoes encoding (R60, R70, R71) -/

/-- A field of the frame word is the number that stands there. -/
theorem extractLsb'_packFrame {soil light : Half} {c : Byte} {start width : Nat} {v : BitVec width}
    (h : (0xAA04 * 2 ^ 48 + soil.toNat * 2 ^ 32 + light.toNat * 2 ^ 16 + c.toNat * 2 ^ 8 + 0x55) / 2 ^ start % 2 ^ width =
      v.toNat) : (packFrame (wireBytes soil light c)).extractLsb' start width = v := by
  apply BitVec.eq_of_toNat_eq
  rw [extractFrameField_toNat, packFrame_toNat, h]

theorem decodeWire_packFrame (soil light : Half) (c : Byte) :
    decodeWire (packFrame (wireBytes soil light c)) = .ok (.frame soil light c) := by
  have hsoil := soil.isLt
  have hlight := light.isLt
  have hc := c.isLt
  have hheader : (packFrame (wireBytes soil light c)).extractLsb' 56 8 = header :=
    extractLsb'_packFrame (by change _ = 0xAA; omega)
  have hlen : (packFrame (wireBytes soil light c)).extractLsb' 48 8 = payloadWidth :=
    extractLsb'_packFrame (by change _ = 4; omega)
  have htail : (packFrame (wireBytes soil light c)).extractLsb' 0 8 = tail :=
    extractLsb'_packFrame (by change _ = 0x55; omega)
  rw [decodeWire, if_pos ⟨hheader, hlen, htail⟩, extractLsb'_packFrame (v := soil) (by omega),
    extractLsb'_packFrame (v := light) (by omega), extractLsb'_packFrame (v := c) (by omega)]

/-- The length of a well-formed operand fits the length field (R81). -/
theorem loByte_ofNat_of_le {n : Nat} (h : n ≤ 255) : (loByte (BitVec.ofNat 16 n)).toNat = n := by
  rw [loByte_toNat, BitVec.toNat_ofNat]
  omega

/-- Settles O2: the encoder's word is that of `OperationCodesSelectTheOperations` with the ignored bits zero, or a frame
word. -/
theorem decodeOfEncodeIsTheInstruction : Obligations.DecodeOfEncodeIsTheInstruction := by
  intro i hwf
  cases i with
  | reset side =>
    cases side with
    | receiver => exact decode_rx_reset 0 []
    | sender => exact decode_tx_reset 0 [] _
  | cksum side bytes =>
    have hlength := (loByte_ofNat_of_le (of_decide_eq_true hwf)).symm
    cases side with
    | receiver => exact decode_rx_cksum _ bytes hlength
    | sender => exact decode_tx_cksum _ bytes _ hlength
  | push port byte =>
    cases port with
    | arr => rfl
    | op => exact (decode_rx_push _ []).trans (by rw [loByte_setWidth])
  | peek offset => exact decode_rx_peek offset []
  | pop => exact decode_rx_pop 0 []
  | size => exact decode_rx_size 0 []
  | dstep => exact decode_rx_dstep 0 []
  | decode arrivals => exact decode_rx_decode 0 [] arrivals
  | encode reading => exact decode_tx_encode 0 [] reading
  | send reading => exact decode_tx_send 0 [] reading
  | frame soil light checksum => exact decodeWire_packFrame soil light checksum

/-! ## Whatever decodes is well-formed (R81, R82) -/

theorem wellFormed_of_decodeCksum {side : Side} {cmd : Cmd} {d : List Byte} {i : Instr}
    (h : decodeCksum side cmd d = .ok i) : i.wellFormed = true := by
  obtain ⟨rfl, hlength⟩ := decodeCksum_ok h
  have hbyte := (argByte cmd).isLt
  exact decide_eq_true (by omega)

theorem wellFormed_of_decodeReceiverCmd {cmd : Cmd} {d : List Byte} {during : List (List Byte)} {i : Instr}
    (h : decodeReceiverCmd cmd d during = .ok i) : i.wellFormed = true := by
  unfold decodeReceiverCmd at h
  split at h
  case h_2 => exact wellFormed_of_decodeCksum h
  case h_9 | h_10 | h_11 => cases h
  all_goals
    cases h
    rfl

theorem wellFormed_of_decodeSenderCmd {cmd : Cmd} {d : List Byte} {r : Reading} {i : Instr}
    (h : decodeSenderCmd cmd d r = .ok i) : i.wellFormed = true := by
  unfold decodeSenderCmd at h
  split at h
  case h_2 => exact wellFormed_of_decodeCksum h
  case h_3 | h_4 | h_5 | h_6 | h_7 | h_8 | h_11 => cases h
  all_goals
    cases h
    rfl

/-- Settles O3: port by port; a CKSUM has as many bytes as its 8-bit length field says. -/
theorem decodedInstructionsAreWellFormed : Obligations.DecodedInstructionsAreWellFormed := by
  intro t i h
  cases t with
  | arr byte =>
    cases h
    rfl
  | rxOp context cmd d during => exact wellFormed_of_decodeReceiverCmd (decodeReceiver_ok h).1
  | txOp cmd d reading => exact wellFormed_of_decodeSenderCmd h
  | wire word =>
    simp only [decode, decodeWire] at h
    split_ifs at h
    cases h
    rfl

/-! ## Readings and valid frames (R65, R141) -/

theorem validFrame_encodeFrame (r : Reading) : validFrame (encodeFrame r) = true :=
  decide_eq_true ⟨rfl, rfl, rfl, rfl, rfl⟩

theorem frameReading_encodeFrame (r : Reading) : frameReading (encodeFrame r) = r := by
  simpa using frameReading_encodeFrame_append r []

theorem encodeFrame_frameReading {f : List Byte} (h : validFrame f = true) : encodeFrame (frameReading f) = f := by
  obtain ⟨b2, b3, b4, b5, c, rfl, rfl⟩ := validFrame_shape h
  simp [encodeFrame_eq, frameReading, frameChecksum, byteOf, payloadWidth]

/-- Settles O33: `frameReading` is a left inverse of `encodeFrame`, and a right inverse on the valid frames. -/
theorem encodingIsABijectionOntoValidFrames : Obligations.EncodingIsABijectionOntoValidFrames :=
  ⟨fun r => ⟨validFrame_encodeFrame r, frameReading_encodeFrame r⟩,
    fun _ _ h => Function.LeftInverse.injective frameReading_encodeFrame h, fun _ h => encodeFrame_frameReading h⟩

/-! ## Words of the test vectors -/

/-- Settles O1: each command word is a code and its `op_arg`, and the 64-bit word is a packed frame. -/
theorem specWordsDecode : Obligations.SpecWordsDecode :=
  ⟨decode_rx_reset 0xFFFF [], decode_rx_cksum 0x0002 [0xFF, 0x01] rfl, decode_rx_push 0xFFFF [], decode_rx_peek 6 [],
    decode_rx_pop 0 [], decode_rx_size 0 [], decode_rx_dstep 0 [], decode_rx_decode 0 [] [[0x55]],
    decode_tx_encode 0 [] _, decode_tx_send 0 [] _, decodeWire_packFrame 60 1800 0x4F⟩

end Sys2Proof.Machine
end

section
/-! The statements of 40_checksum.md: CKSUM answers the checksum of its operand (R81), and the laws of the checksum (R83). -/

namespace Sys2Proof.Machine

/-! ## The operation (R81) -/

/-- The accumulator loop of CKSUM computes the function `cksum` (R83 (c)). -/
theorem exec_cksum (side : Side) (bytes : List Byte) (s : State) :
    exec (.cksum side bytes) s = .next (respond side (.byte (cksum bytes)) s) := by
  have hloop : cksumLoop bytes 0 = cksum bytes := by rw [cksumLoop_eq, zero_add]
  rw [← hloop]
  rfl

/-- Settles O29: the encoding is that of `OperationCodesSelectTheOperations`, the answer on either port is `cksum bytes`. -/
theorem cksumIsTheSumModulo256 : Obligations.CksumIsTheSumModulo256 := by
  intro s ignored n bytes hlength
  obtain ⟨-, -, hcodes, -⟩ := operationCodesSelectTheOperations
  have hports := fun r => hcodes ignored n bytes r hlength
  exact ⟨(hports ⟨0, 0⟩).1, fun r => (hports r).2, cksum bytes, cksum_toNat bytes, exec_cksum .receiver bytes s,
    exec_cksum .sender bytes s, rfl⟩

/-! ## Laws of the checksum (R83) -/

theorem cksum_perm {s t : List Byte} (h : s.Perm t) : cksum s = cksum t :=
  congrArg (BitVec.ofNat 8) (h.map BitVec.toNat).sum_eq

@[simp] theorem cksum_replicate_zero (n : Nat) : cksum (List.replicate n 0) = 0 := by
  induction n with
  | zero => rfl
  | succ n ih => rw [List.replicate_succ, cksum_cons, ih, zero_add]

/-- Settles O30: order and zeros do not matter to a sum. -/
theorem checksumIgnoresOrderAndZeros : Obligations.ChecksumIgnoresOrderAndZeros := by
  refine ⟨cksum_append, fun _ _ h => cksum_perm h, fun s t n => ?_⟩
  calc cksum (s ++ List.replicate n 0 ++ t)
      = cksum s + 0 + cksum t := by rw [cksum_append, cksum_append, cksum_replicate_zero]
    _ = cksum (s ++ t) := by rw [add_zero, cksum_append]

/-- Addition modulo 256 cancels, so in a fixed context the checksum determines the byte. -/
theorem cksum_append_cons_inj (s t : List Byte) (a b : Byte) : cksum (s ++ a :: t) = cksum (s ++ b :: t) ↔ a = b := by
  rw [cksum_append, cksum_append, cksum_cons, cksum_cons, BitVec.add_right_inj, BitVec.add_left_inj]

/-- Settles O31: equal checksums would make the two bytes equal. -/
theorem checksumDetectsOneCorruptedByte : Obligations.ChecksumDetectsOneCorruptedByte :=
  fun s t a b hne heq => hne ((cksum_append_cons_inj s t a b).mp heq)

end Sys2Proof.Machine
end

section
/-! The statements of 41_byte_stream_buffer.md: what PUSH, PEEK, POP and SIZE answer and leave (R90 to R93), and the
overflow law (R94). -/

namespace Sys2Proof.Machine

/-! ## PUSH (R90) -/

theorem read?_pushByte_pushCell (s : State) (b : Byte) : (pushByte b s).mem.read? (pushCell s) = some b := by
  rw [read?_pushByte, if_pos rfl]

theorem read?_pushByte_of_ne {s : State} {a : Nat} (b : Byte) (h : a ≠ pushCell s) :
    (pushByte b s).mem.read? a = s.mem.read? a := by
  rw [read?_pushByte, if_neg h]

/-- Settles O21: on both ports the ring does one `pushByte`; the operation port adds its response. -/
theorem pushAppendsOrEvicts : Obligations.PushAppendsOrEvicts := by
  intro s port b hs
  refine ⟨fun ignored => by rw [decode_rx_push, loByte_append], rfl, ?_⟩
  cases port with
  | arr =>
    exact ⟨_, rfl, view_pushByte hs b, rfl, read?_pushByte_pushCell s b, fun _ => read?_pushByte_of_ne b⟩
  | op =>
    refine ⟨_, rfl, ?_, rfl, read?_pushByte_pushCell s b, fun _ => read?_pushByte_of_ne b⟩
    rw [view_respond_receiver, view_pushByte hs, pushByte_rxRes]

/-! ## PEEK and POP (R91, R92) -/

/-- Settles O23: what PEEK reads is `Q[offset]?` (`peekByte_eq`). -/
theorem peekReturnsTheByteOrFails : Obligations.PeekReturnsTheByteOrFails := by
  intro s offset
  refine ⟨decode_rx_peek offset [], fun b hb => ?_, fun hle => ?_, fun _ => ⟨rfl, rfl⟩, rfl, rfl⟩
  · rw [← peekByte_eq] at hb
    exact exec_peek_of_some hb
  · rw [s.q_length] at hle
    exact exec_peek_of_none (peekByte_of_le hle)

theorem view_dropFront (k : Nat) (s : State) : (dropFront k s).view = { s.view with q := s.q.drop k } := by
  simp [State.view, q_dropFront]

/-- Settles O24: by whether `Q` has a front byte for POP to read (`peekByte_eq`). -/
theorem popRemovesTheFrontOrFails : Obligations.PopRemovesTheFrontOrFails := by
  intro s _
  refine ⟨fun arg => decode_rx_pop arg [], fun b rest hq => ?_, fun hq => ?_, rfl, rfl⟩
  · have hfront : peekByte 0 s = some b := by rw [peekByte_eq, hq, List.getElem?_cons_zero]
    refine ⟨_, exec_pop_of_some hfront, ?_, fun _ => rfl⟩
    rw [view_respond_receiver, view_dropFront, dropFront_rxRes, hq, List.drop_one, List.tail_cons]
  · have hnone : peekByte 0 s = none := by rw [peekByte_eq, hq, List.getElem?_nil]
    exact exec_pop_of_none hnone

/-! ## SIZE (R93) -/

theorem exec_size (s : State) : exec .size s = .next { s with rxRes := s.rxRes ++ [.count s.q.length] } := by
  rw [State.q_length]
  rfl

theorem State.Inv.q_length_le {s : State} (h : s.Inv) : s.q.length ≤ s.config.capacity := by
  rw [State.q_length]
  exact h.count_le

theorem q_length_pushByte_of_full {s : State} (h : s.Inv) (hfull : s.q.length = s.config.capacity) (b : Byte) :
    (pushByte b s).q.length = s.config.capacity := by
  rw [State.q_length] at hfull ⊢
  rw [count_pushByte h, if_neg hfull.not_lt]

/-- Settles O25: SIZE answers `|Q|`, which the invariant bounds by CAPACITY and R6 by the 16 bits of `res_count`. -/
theorem sizeIsTheNumberOfBytes : Obligations.SizeIsTheNumberOfBytes := by
  refine ⟨exec_size State.reset, fun s hs => ?_⟩
  obtain ⟨-, hcapacity, -⟩ := hs.admissible
  have hle := hs.q_length_le
  have hfits : s.q.length ≤ 65535 := hle.trans hcapacity
  refine ⟨fun arg => decode_rx_size arg [], exec_size s, hle, ?_, ?_, fun hfull b => ⟨_, rfl, ?_⟩⟩
  · rw [Response.resCount, if_pos hfits]
  · rw [BitVec.toNat_ofNat, Nat.mod_eq_of_lt (Nat.lt_succ_of_le hfits)]
  · rw [exec_size, q_length_pushByte_of_full hs hfull]

/-! ## The overflow law (R94) -/

/-- Settles O26: a run of arrivals is `pushAll` (`run_arrivals`), and that keeps the newest bytes (`view_pushAll`). -/
theorem overflowKeepsTheNewest : Obligations.OverflowKeepsTheNewest := by
  intro s p rest hs hinput
  have hdrop : (s.q ++ p).length - min (s.q.length + p.length) s.config.capacity =
      s.q.length + p.length - s.config.capacity := by
    rw [List.length_append]
    omega
  refine ⟨_, run_arrivals p hs.admissible hinput, ?_, fun a ha => read?_pushAll_of_not_storesTo hs p ha⟩
  rw [hdrop]
  exact congrArg (fun v : View => { v with input := rest }) (view_pushAll hs p)

end Sys2Proof.Machine
end

section
/-! The statements of 42_frame_decoder.md about one iteration: what a DSTEP that stops, discards or accepts answers (R113 to
R120), and what is known on entry to a control state (R111). -/

namespace Sys2Proof.Machine

/-! ## A content that begins with a valid frame (R65) -/

/-- A valid frame is the encoding of some reading, and no other eight bytes are. -/
theorem validFrame_iff {f : List Byte} : validFrame f = true ↔ ∃ r, f = encodeFrame r :=
  ⟨fun h => ⟨frameReading f, (encodeFrame_frameReading h).symm⟩, fun ⟨r, h⟩ => h ▸ validFrame_encodeFrame r⟩

theorem take_encodeFrame_append (r : Reading) (rest : List Byte) : (encodeFrame r ++ rest).take 8 = encodeFrame r :=
  List.take_left' (encodeFrame_length r)

theorem validFrame_take_iff {q : List Byte} : validFrame (q.take 8) = true ↔ ∃ r rest, q = encodeFrame r ++ rest := by
  rw [validFrame_iff]
  constructor
  · rintro ⟨r, h⟩
    exact ⟨r, q.drop 8, by rw [← h, List.take_append_drop]⟩
  · rintro ⟨r, rest, rfl⟩
    exact ⟨r, take_encodeFrame_append r rest⟩

/-- What steps 2, 3, 7, 8 and 9 test of a candidate they accept makes its first eight bytes a valid frame. -/
theorem validFrame_take_of_accepted {q : List Byte} (h0 : q[0]? = some 0xAA) (h1 : q[1]? = some 0x04)
    (h7 : q[7]? = some 0x55) (h6 : q[6]? = some (cksum ((q.drop 1).take 5))) : validFrame (q.take 8) = true := by
  obtain ⟨hlength, -⟩ := List.getElem?_eq_some_iff.mp h7
  match q, hlength with
  | a0 :: a1 :: a2 :: a3 :: a4 :: a5 :: a6 :: a7 :: rest, _ =>
    obtain rfl : a0 = 0xAA := Option.some.inj h0
    obtain rfl : a1 = 0x04 := Option.some.inj h1
    obtain rfl : a7 = 0x55 := Option.some.inj h7
    exact decide_eq_true ⟨rfl, rfl, rfl, rfl, Option.some.inj h6⟩

/-- An iteration accepts exactly the contents that begin with a valid frame, and the reading is the one encoded (R119). -/
theorem fromSeek_eq_accept_iff {maxFrame : Nat} (hm : 8 ≤ maxFrame) {q : List Byte} {r : Reading} :
    fromSeek maxFrame q = .accept r ↔ ∃ rest, q = encodeFrame r ++ rest := by
  constructor
  · intro h
    have hvalid : validFrame (q.take 8) = true := by
      obtain ⟨-, hr⟩ | ⟨d, rest, -, -, hr⟩ | ⟨-, -, hr⟩ | ⟨len, x, rest, -, -, hr⟩ | ⟨len, -, -, hr⟩ |
        ⟨len, last, c, hcand, hlast, hc⟩ := fromSeek_cases maxFrame q
      case inr.inr.inr.inr.inr =>
        obtain ⟨-, hheader, hlen, -⟩ := id hcand
        rw [fromSeek_candidate hcand, fromNeedBody_full hlen hlast hc] at h
        split_ifs at h with htail hsum hwidth
        obtain rfl := not_not.mp htail
        obtain rfl := not_not.mp hsum
        obtain rfl := not_not.mp hwidth
        exact validFrame_take_of_accepted hheader hlen hlast hc
      all_goals cases hr.symm.trans h
    obtain ⟨r', rest, rfl⟩ := validFrame_take_iff.mp hvalid
    rw [fromSeek_encodeFrame hm] at h
    cases h
    exact ⟨rest, rfl⟩
  · rintro ⟨rest, rfl⟩
    exact fromSeek_encodeFrame hm r rest

/-- A candidate that is not all buffered waits (step 5). -/
theorem fromSeek_needBody {maxFrame : Nat} {q : List Byte} {len : Byte} (h : Candidate maxFrame q len)
    (hl : q.length < len.toNat + 4) : fromSeek maxFrame q = .needBody (len.toNat + 4) := by
  obtain ⟨-, -, hlen, -⟩ := id h
  rw [fromSeek_candidate h, fromNeedBody_short hlen hl]

/-- The byte a discard reports is the one at the front (R113). -/
theorem front_of_fromSeek_discard {maxFrame : Nat} {q : List Byte} {kind : ErrorKind} {d : Byte}
    (h : fromSeek maxFrame q = .discard kind d) : q[0]? = some d := by
  obtain ⟨-, hr⟩ | ⟨b, rest, rfl, -, hr⟩ | ⟨-, -, hr⟩ | ⟨len, x, rest, rfl, -, hr⟩ | ⟨len, -, -, hr⟩ |
    ⟨len, last, c, hcand, hlast, hc⟩ := fromSeek_cases maxFrame q
  · cases hr.symm.trans h
  · cases hr.symm.trans h
    rfl
  · cases hr.symm.trans h
  · cases hr.symm.trans h
    rfl
  · cases hr.symm.trans h
  · obtain ⟨-, hheader, hlen, -⟩ := id hcand
    rw [fromSeek_candidate hcand, fromNeedBody_full hlen hlast hc] at h
    split_ifs at h <;> cases h <;> exact hheader

theorem eq_cons_drop_of_front {q : List Byte} {d : Byte} (h : q[0]? = some d) : q = d :: q.drop 1 := by
  cases q with
  | nil => cases h
  | cons b rest => rw [Option.some.inj h]; rfl

/-! ## What a DSTEP answers (R113) -/

/-- The event announces a stop exactly when the iteration stops (R158). -/
@[simp] theorem isStop_eventOf (q : List Byte) (r : IterResult) : (eventOf q r).isStop = r.stops := by
  cases r <;> simp [eventOf, Event.isStop, IterResult.stops]

theorem iterate_of_stops {s : State} (h : (iterationOf s).stops = true) :
    iterate s = { s with ev := s.ev ++ [eventOf s.q (iterationOf s)] } :=
  applyIteration_of_stops h

/-- A DSTEP that stops adds its event and its result, and nothing else changes. -/
theorem exec_dstep_of_stops {s : State} {r : IterResult} {e : Event} (hr : iterationOf s = r) (hstop : r.stops = true)
    (he : eventOf s.q r = e) :
    exec .dstep s = .next { s with ev := s.ev ++ [e], rxRes := s.rxRes ++ [.iteration r] } := by
  subst hr he
  rw [exec_dstep, iterate_of_stops hstop]
  rfl

theorem eventOf_needBody {q : List Byte} {len : Byte} (h : q[1]? = some len) (f : Nat) :
    eventOf q (.needBody f) = ⟨.needBody, len⟩ := by
  rw [eventOf, byteOf_of_getElem? h]

/-- Settles O36: `fromSeek` by how much is buffered, and each of the three results stops. -/
theorem stoppingIterationsChangeNothing : Obligations.StoppingIterationsChangeNothing := by
  intro s
  refine ⟨fun hq => ?_, fun hheader hshort => ?_, fun len hcand hshort => ?_, rfl, rfl, rfl⟩
  · have hr : iterationOf s = .idle := by rw [iterationOf_eq, hq, fromSeek_nil]
    exact exec_dstep_of_stops hr rfl rfl
  · exact exec_dstep_of_stops (fromSeek_needLen hheader hshort) rfl rfl
  · obtain ⟨-, -, hlen, -⟩ := id hcand
    exact exec_dstep_of_stops (fromSeek_needBody hcand hshort) rfl (eventOf_needBody hlen _)

theorem view_iterate (s : State) :
    (iterate s).view = { s.view with
      q := s.q.drop (removed (iterationOf s))
      rd := s.rd ++ (iterationOf s).readings
      ev := s.ev ++ [eventOf s.q (iterationOf s)] } := by
  simp [State.view, iterate]

/-- The whole effect of a DSTEP by its result: what leaves the front, what is emitted, the event and the response. -/
theorem view_dstep {s : State} {r : IterResult} (hr : iterationOf s = r) :
    ∃ t, exec .dstep s = .next t ∧
      t.view = { s.view with
        q := s.q.drop (removed r)
        rd := s.rd ++ r.readings
        ev := s.ev ++ [eventOf s.q r]
        rxRes := s.rxRes ++ [.iteration r] } ∧
      t.mem = s.mem := by
  subst hr
  refine ⟨_, exec_dstep s, ?_, by simp [iterate]⟩
  rw [view_respond_receiver, view_iterate]
  simp [iterate]

/-- Settles O42: the checksum test of `fromSeek_accept` is the sum modulo 256, and a field is its two bytes joined. -/
theorem validFrameIsAccepted : Obligations.ValidFrameIsAccepted := by
  intro s b2 b3 b4 b5 c rest hs hq hc
  obtain ⟨-, -, hmax, -⟩ := hs.admissible
  have hsum : cksum [4, b2, b3, b4, b5] = c := by
    rw [cksum_eq_iff, hc]
    simp [Nat.add_assoc]
  have hr : iterationOf s = .accept ⟨joinBytes b2 b3, joinBytes b4 b5⟩ := by
    rw [iterationOf_eq, hq, fromSeek_accept hmax b2 b3 b4 b5 c rest hsum]
  obtain ⟨t, ht, hview, hmem⟩ := view_dstep hr
  refine ⟨t, ⟨joinBytes b2 b3, joinBytes b4 b5⟩, ht, joinBytes_toNat b2 b3, joinBytes_toNat b4 b5, ?_, rfl,
    fun _ => by rw [hmem]⟩
  rw [hview, hq]
  rfl

/-- Settles O43: by the result. A stop is repeated because the content is the same (`iterationOf_congr`), a discard reports
the front byte, and what is accepted is a frame. -/
theorem everyIterationStopsOrProgresses : Obligations.EveryIterationStopsOrProgresses := by
  intro s hs
  obtain ⟨-, -, hmax, -⟩ := hs.admissible
  obtain ⟨t, ht, hview, -⟩ := view_dstep (s := s) rfl
  have hq : t.q = s.q.drop (removed (iterationOf s)) := congrArg View.q hview
  have hrd : t.rd = s.rd ++ (iterationOf s).readings := congrArg View.rd hview
  refine ⟨t, iterationOf s, _, ht, congrArg View.rxRes hview, congrArg View.ev hview, ?_⟩
  obtain ⟨hstop, hnone, -⟩ | ⟨-, ⟨kind, hr⟩, -⟩ | ⟨-, r, hr, -⟩ := iterationOf_cases s
  · have hsame : t.q = s.q := by rw [hq, hnone, List.drop_zero]
    have hr : iterationOf t = iterationOf s := iterationOf_congr (congrArg View.config hview) hsame
    exact .inl ⟨hstop, by rw [isStop_eventOf, hstop], hsame, _, exec_dstep_of_stops hr hstop rfl, hsame, rfl⟩
  · have hfront := front_of_fromSeek_discard (hr : fromSeek s.config.maxFrame s.q = _)
    refine .inr (.inl ⟨kind, byteOf s.q 0, hr, by rw [hr]; rfl, ?_⟩)
    rw [hq, hr]
    exact eq_cons_drop_of_front hfront
  · obtain ⟨rest, hfront⟩ := (fromSeek_eq_accept_iff hmax).mp (hr : fromSeek s.config.maxFrame s.q = _)
    refine .inr (.inr ⟨encodeFrame r, r, hr, by rw [hr]; rfl, validFrame_encodeFrame r, ?_, ?_, rfl⟩)
    · rw [hq, hr, hfront]
      rfl
    · rw [hrd, hr]
      rfl

/-! ## Control states (R111) -/

/-- Settles O45: each entry condition decides the tests of the states before it, and the two outcomes are those of
`fromSeek_eq_accept_iff` and `front_of_fromSeek_discard`. -/
theorem controlStatesKnowEnough : Obligations.ControlStatesKnowEnough := by
  intro maxFrame q hmax
  refine ⟨fun d hd hknown => ?_, fun kind h => ⟨front_of_fromSeek_discard h, ?_⟩, fun r h => ?_⟩
  · cases d with
    | seekHeader => rfl
    | haveHeaderNeedLen =>
      obtain ⟨-, hheader⟩ := hknown
      exact (fromSeek_header hheader).symm
    | haveLenNeedBody =>
      obtain ⟨len, hcand⟩ := hknown
      exact (fromSeek_candidate hcand).symm
    | frameAccepted =>
      obtain ⟨r, rest, rfl⟩ := validFrame_take_iff.mp hknown
      have haccept : fromAccepted (encodeFrame r ++ rest) = .accept r :=
        congrArg IterResult.accept (frameReading_encodeFrame_append r rest)
      exact haccept.trans (fromSeek_encodeFrame hmax r rest).symm
    | frameRejected kind => exact absurd rfl (hd kind)
  · rw [Bool.eq_false_iff]
    intro hvalid
    obtain ⟨r, rest, rfl⟩ := validFrame_take_iff.mp hvalid
    cases (fromSeek_encodeFrame hmax r rest).symm.trans h
  · exact validFrame_take_iff.mpr ⟨r, (fromSeek_eq_accept_iff hmax).mp h⟩

end Sys2Proof.Machine
end

section
/-! The statements of 42_frame_decoder.md about DECODE (R124, R125), and what it does on a frame alone, behind noise, cut off,
corrupted, or behind a false header (R127, R128). -/

namespace Sys2Proof.Machine

/-! ## DECODE as its first iteration and the rest (R124) -/

/-- A DECODE whose first iteration stops adds its event and the count 0; what was scheduled comes after it. -/
theorem exec_decode_of_stops (arrivals : List (List Byte)) {s : State} {r : IterResult} {e : Event}
    (hr : iterationOf s = r) (hstop : r.stops = true) (he : eventOf s.q r = e) :
    exec (.decode arrivals) s = .next { s with
      ev := s.ev ++ [e]
      rxRes := s.rxRes ++ [.count 0]
      input := arrivals.flatten.map Transaction.arr ++ s.input } := by
  subst hr he
  rw [exec_decode, decodeRun_of_stops _ _ hstop, iterate_of_stops hstop]
  rfl

/-- The same without arrivals: nothing but the event and the count 0 is added. -/
theorem exec_decode_nil_of_stops {s : State} {r : IterResult} {e : Event} (hr : iterationOf s = r)
    (hstop : r.stops = true) (he : eventOf s.q r = e) :
    exec (.decode []) s = .next { s with ev := s.ev ++ [e], rxRes := s.rxRes ++ [.count 0] } :=
  exec_decode_of_stops [] hr hstop he

/-- A DECODE whose first iteration goes on counts its readings and those of the rest of the loop. -/
theorem exec_decode_of_continues (arrivals : List (List Byte)) {s w : State} (hgo : (iterationOf s).stops = false)
    (hw : pushAll (arrivals.headD []) (iterate s) = w) :
    exec (.decode arrivals) s =
      .next (respond .receiver (.count ((decodeRun arrivals.tail 0 w).readings + (iterationOf s).readings.length))
        (arriveNext (decodeRun arrivals.tail 0 w).leftover.flatten (decodeRun arrivals.tail 0 w).state)) := by
  rw [exec_decode, decodeRun_of_continues _ _ hgo, hw, decodeRun_readings, zero_add, Nat.add_comm]

/-- Nothing a DECODE does depends on the responses made before it. -/
theorem exec_decode_with_rxRes (arrivals : List (List Byte)) (s : State) (x : List Response) :
    exec (.decode arrivals) { s with rxRes := x } =
      .next { arriveNext (decodeRun arrivals 0 s).leftover.flatten (decodeRun arrivals 0 s).state with
        rxRes := x ++ [.count (decodeRun arrivals 0 s).readings] } := by
  rw [exec_decode, decodeRun_with_rxRes]
  rfl

/-- Settles O46: by the loop's own equations; the response of the DSTEP is not looked at by the DECODE that follows it
(`exec_decode_with_rxRes`). -/
theorem decodeRepeatsDstep : Obligations.DecodeRepeatsDstep := by
  intro s u arrivals r _ hu hres
  cases (exec_dstep s).symm.trans hu
  obtain rfl : iterationOf s = r := by simpa [iterate] using hres
  refine ⟨fun hstop => ?_, fun hgo => ?_⟩
  · rw [exec_decode_of_stops arrivals rfl hstop rfl, iterate_of_stops hstop]
    rfl
  · obtain ⟨w, hw⟩ : ∃ w, pushAll (arrivals.headD []) (iterate s) = w := ⟨_, rfl⟩
    have hpush : pushAll (arrivals.headD []) (respond .receiver (.iteration (iterationOf s)) (iterate s)) =
        { w with rxRes := (iterate s).rxRes ++ [.iteration (iterationOf s)] } := by
      rw [← hw]
      exact pushAll_with_rxRes _ _ _
    have hrxRes : (decodeRun arrivals.tail 0 w).state.rxRes = s.rxRes := by simp [← hw, iterate]
    refine ⟨_, _, by rw [hpush, exec_decode_with_rxRes], rfl, ?_⟩
    rw [exec_decode_of_continues arrivals hgo hw, ← hrxRes]
    rfl

/-! ## How a DECODE ends (R125) -/

/-- The contents on which an iteration stops (steps 1, 3 and 5). -/
theorem fromSeek_stops_cases {maxFrame : Nat} {q : List Byte} (h : (fromSeek maxFrame q).stops = true) :
    (q = [] ∧ fromSeek maxFrame q = .idle) ∨
    (q[0]? = some 0xAA ∧ q.length < 3 ∧ fromSeek maxFrame q = .needLen) ∨
    ∃ len, Candidate maxFrame q len ∧ q.length < len.toNat + 4 ∧ fromSeek maxFrame q = .needBody (len.toNat + 4) := by
  obtain hidle | ⟨d, rest, -, -, hr⟩ | hneedLen | ⟨len, x, rest, -, -, hr⟩ | hneedBody |
    ⟨len, last, c, hcand, hlast, hc⟩ := fromSeek_cases maxFrame q
  · exact .inl hidle
  · rw [hr] at h
    cases h
  · exact .inr (.inl hneedLen)
  · rw [hr] at h
    cases h
  · exact .inr (.inr hneedBody)
  · obtain ⟨-, -, hlen, -⟩ := id hcand
    rw [fromSeek_candidate hcand, fromNeedBody_full hlen hlast hc] at h
    split_ifs at h <;> cases h

/-- What is left when an iteration stops, and the event that says so (R125). -/
theorem undecidable_of_stops {maxFrame : Nat} {q : List Byte} (h : (fromSeek maxFrame q).stops = true) :
    (q = [] ∧ eventOf q (fromSeek maxFrame q) = ⟨.idle, 0⟩) ∨
    (q[0]? = some 0xAA ∧ q.length ≤ 2 ∧ eventOf q (fromSeek maxFrame q) = ⟨.needLen, 0⟩) ∨
    ∃ len, Candidate maxFrame q len ∧ q.length < len.toNat + 4 ∧
      eventOf q (fromSeek maxFrame q) = ⟨.needBody, len⟩ := by
  obtain ⟨hq, hr⟩ | ⟨hheader, hshort, hr⟩ | ⟨len, hcand, hshort, hr⟩ := fromSeek_stops_cases h
  · exact .inl ⟨hq, by rw [hr]; rfl⟩
  · exact .inr (.inl ⟨hheader, Nat.le_of_lt_succ hshort, by rw [hr]; rfl⟩)
  · obtain ⟨-, -, hlen, -⟩ := id hcand
    exact .inr (.inr ⟨len, hcand, hshort, by rw [hr, eventOf_needBody hlen]⟩)

theorem length_lt_of_stops {maxFrame : Nat} (hm : 8 ≤ maxFrame) {q : List Byte}
    (h : (fromSeek maxFrame q).stops = true) : q.length + 1 ≤ maxFrame := by
  obtain ⟨rfl, -⟩ | ⟨-, hshort, -⟩ | ⟨len, ⟨-, -, -, -, hmax⟩, hshort, -⟩ := fromSeek_stops_cases h
  · exact Nat.le_trans (by decide) hm
  · omega
  · omega

/-- The state a DECODE answers has the ring and the streams of the end of the loop, keeps the invariant, and its next
iteration stops. -/
theorem exec_decode_ends (arrivals : List (List Byte)) {s : State} (hs : s.Inv) :
    ∃ t, exec (.decode arrivals) s = .next t ∧ t.Inv ∧ (iterationOf t).stops = true ∧
      ∃ rd ev, t.rd = s.rd ++ rd ∧ t.ev = s.ev ++ ev ++ [eventOf t.q (iterationOf t)] ∧
        t.rxRes = s.rxRes ++ [.count rd.length] ∧ (∀ x ∈ ev, x.isStop = false) ∧
        (arrivals = [] → ev.length ≤ s.q.length ∧ t.q <:+ s.q) := by
  obtain ⟨hinv, hstop⟩ := decodeRun_stops arrivals 0 hs
  obtain ⟨rd, ev, e, hrd, hev, hcount, hgo, -, he, hnil⟩ := decodeRun_outputs arrivals 0 s
  have hsame : iterationOf (respond .receiver (.count (decodeRun arrivals 0 s).readings)
      (arriveNext (decodeRun arrivals 0 s).leftover.flatten (decodeRun arrivals 0 s).state)) =
      iterationOf (decodeRun arrivals 0 s).state := iterationOf_congr rfl (by simp)
  refine ⟨_, exec_decode arrivals s, (hinv.arriveNext _).respond _ _, by rw [hsame, hstop], rd, ev, hrd, ?_, ?_, hgo, ?_⟩
  · rw [hsame, q_respond, q_arriveNext, ← he]
    exact hev
  · rw [respond_receiver_rxRes, arriveNext_rxRes, decodeRun_rxRes, hcount, zero_add]
  · rwa [q_respond, q_arriveNext]

/-- Settles O47: the end of the loop stops (`exec_decode_ends`), and the contents that stop are those three. -/
theorem decodeLeavesNothingDecidable : Obligations.DecodeLeavesNothingDecidable := by
  intro s arrivals hs
  obtain ⟨t, ht, hinv, hstop, rd, ev, hrd, hev, hres, hgo, hnil⟩ := exec_decode_ends arrivals hs
  obtain ⟨-, -, hmax, -⟩ := hinv.admissible
  exact ⟨t, rd, ev, _, ht, hinv, hrd, hev, hres, hgo, undecidable_of_stops hstop, length_lt_of_stops hmax hstop, hnil⟩

/-- Settles O48: the iteration that stopped the DECODE is the first of the second. -/
theorem secondDecodeChangesNothing : Obligations.SecondDecodeChangesNothing := by
  intro s t arrivals hs ht
  obtain ⟨u, hu, -, hstop, rd, ev, -, hev, -⟩ := exec_decode_ends arrivals hs
  cases hu.symm.trans ht
  exact ⟨_, by rw [hev, List.getLast?_concat], exec_decode_nil_of_stops rfl hstop rfl⟩

/-- Settles O49: the loop writes the cells of the arrivals it pushed and no other (`decodeRun_content`). -/
theorem decodeChangesOnlyTheBuffer : Obligations.DecodeChangesOnlyTheBuffer := by
  intro s arrivals hs
  obtain ⟨n, k, -, hleft, hmem⟩ := decodeRun_content arrivals 0 hs
  exact ⟨_, n, exec_decode arrivals s, by simp, by simp, by simp, by simp [hleft], hmem⟩

/-! ## DECODE without arrivals, from the content (R127) -/

/-- A DECODE without arrivals of the content `q` emits `rd`, reports `ev`, leaves `q'` and writes no cell. -/
def DecodesTo (maxFrame : Nat) (q : List Byte) (rd : List Reading) (ev : List Event) (q' : List Byte) : Prop :=
  ∀ (s : State) (n : Nat), s.config.maxFrame = maxFrame → s.q = q →
    (decodeRun [] n s).state.view = { s.view with q := q', rd := s.rd ++ rd, ev := s.ev ++ ev } ∧
    (decodeRun [] n s).state.mem = s.mem ∧ (decodeRun [] n s).readings = n + rd.length

namespace DecodesTo
variable {maxFrame : Nat} {q q' : List Byte} {rd : List Reading} {ev : List Event}

theorem stop (h : (fromSeek maxFrame q).stops = true) :
    DecodesTo maxFrame q [] [eventOf q (fromSeek maxFrame q)] q := by
  rintro s n rfl rfl
  have hstop : (iterationOf s).stops = true := h
  rw [decodeRun_of_stops _ _ hstop, iterate_of_stops hstop]
  refine ⟨?_, rfl, rfl⟩
  rw [List.append_nil]
  rfl

theorem go {r : IterResult} (hr : fromSeek maxFrame q = r) (hgo : r.stops = false)
    (h : DecodesTo maxFrame (q.drop (removed r)) rd ev q') :
    DecodesTo maxFrame q (r.readings ++ rd) (eventOf q r :: ev) q' := by
  subst hr
  rintro s n rfl rfl
  rw [decodeRun_of_continues _ _ (s := s) hgo]
  obtain ⟨hview, hmem, hcount⟩ := h (iterate s) (n + (iterationOf s).readings.length) (by simp [iterate])
    (by simp [iterate, iterationOf_eq])
  refine ⟨?_, ?_, ?_⟩
  · rw [← iterationOf_eq]
    refine hview.trans ?_
    rw [view_iterate]
    simp [iterate]
  · exact hmem.trans (by simp [iterate])
  · refine hcount.trans ?_
    rw [List.length_append, Nat.add_assoc]
    rfl

/-- An empty buffer is reported once (step 1). -/
theorem nil : DecodesTo maxFrame [] [] [idleEvent] [] := stop rfl

theorem noise {d : Byte} (hd : d ≠ 0xAA) (h : DecodesTo maxFrame q rd ev q') :
    DecodesTo maxFrame (d :: q) rd (noiseEvent d :: ev) q' :=
  go (fromSeek_noise maxFrame q hd) rfl h

theorem noises {g : List Byte} (hg : ∀ x ∈ g, x ≠ 0xAA) (h : DecodesTo maxFrame q rd ev q') :
    DecodesTo maxFrame (g ++ q) rd (g.map noiseEvent ++ ev) q' := by
  induction g with
  | nil => exact h
  | cons d rest ih =>
    obtain ⟨hd, hrest⟩ := List.forall_mem_cons.mp hg
    exact noise hd (ih hrest)

theorem frame (hm : 8 ≤ maxFrame) (r : Reading) (h : DecodesTo maxFrame q rd ev q') :
    DecodesTo maxFrame (encodeFrame r ++ q) (r :: rd) (acceptEvent :: ev) q' :=
  go (fromSeek_encodeFrame hm r q) rfl h

theorem exec {s : State} (hs : s.Inv) (hq : s.q = q) (h : DecodesTo s.config.maxFrame q rd ev q') :
    ∃ t, exec (.decode []) s = .next t ∧
      t.view = { s.view with
        q := q'
        rd := s.rd ++ rd
        ev := s.ev ++ ev
        rxRes := s.rxRes ++ [.count rd.length] } ∧
      t.mem = s.mem := by
  obtain ⟨hview, hmem, hcount⟩ := h s 0 rfl hq
  obtain ⟨m, -, -, hleft, -⟩ := decodeRun_content [] 0 hs
  rw [List.drop_nil] at hleft
  refine ⟨_, exec_decode [] s, ?_, hmem⟩
  rw [hleft, hcount, view_respond_receiver, zero_add, arriveNext_rxRes, decodeRun_rxRes]
  exact congrArg (fun v : View => { v with rxRes := s.rxRes ++ [Response.count rd.length] }) hview

end DecodesTo

/-- Settles O50: the frame is accepted and the empty buffer reported. -/
theorem roundTripDecodesOnce : Obligations.RoundTripDecodesOnce := by
  intro s r hs hq
  obtain ⟨-, -, hmax, -⟩ := hs.admissible
  obtain ⟨t, ht, hview, hmem⟩ := (DecodesTo.nil.frame hmax r).exec hs (hq.trans (List.append_nil _).symm)
  exact ⟨t, ht, hview, fun _ => by rw [hmem]⟩

/-- Settles O51: the noise, then as a frame alone. -/
theorem noiseBeforeAFrameIsDiscarded : Obligations.NoiseBeforeAFrameIsDiscarded := by
  intro s g r hs hg hq
  obtain ⟨-, -, hmax, -⟩ := hs.admissible
  obtain ⟨t, ht, hview, -⟩ := ((DecodesTo.nil.frame hmax r).noises hg).exec hs (by rw [hq, List.append_nil])
  exact ⟨t, ht, by rw [hview, List.append_assoc]; rfl⟩

/-- Settles O54: the noise, then two frames. -/
theorem twoFramesBehindGarbageAreRecovered : Obligations.TwoFramesBehindGarbageAreRecovered := by
  intro s g r r' hs hg hq
  obtain ⟨-, -, hmax, -⟩ := hs.admissible
  obtain ⟨t, ht, hview, -⟩ := (((DecodesTo.nil.frame hmax r').frame hmax r).noises hg).exec hs
    (by rw [hq, List.append_nil, List.append_assoc])
  exact ⟨t, ht, by rw [hview, List.append_assoc]; rfl⟩

/-! ## Candidates that wait (R127 (c), R128 (b)) -/

/-- Settles O55: a candidate that is not all buffered stops the first iteration (step 5). -/
theorem falseHeaderStallsDecoding : Obligations.FalseHeaderStallsDecoding := by
  intro s len arrivals _ hcand hshort
  obtain ⟨-, -, hlen, -⟩ := id hcand
  exact exec_decode_of_stops arrivals (fromSeek_needBody hcand hshort) rfl (eventOf_needBody hlen _)

theorem candidate_take_encodeFrame {maxFrame : Nat} (hm : 8 ≤ maxFrame) (r : Reading) {k : Nat} (hk : 3 ≤ k) :
    Candidate maxFrame ((encodeFrame r).take k) 0x04 := by
  refine ⟨?_, ?_, ?_, by decide, hm⟩
  · rw [List.length_take, encodeFrame_length]
    omega
  · rw [List.getElem?_take_of_lt (by omega)]
    rfl
  · rw [List.getElem?_take_of_lt (by omega)]
    rfl

/-- Settles O52: by how many of the eight bytes are there, each of the three stops. -/
theorem truncatedFrameWaits : Obligations.TruncatedFrameWaits := by
  intro s r k hs hk hq
  obtain ⟨-, -, hmax, -⟩ := hs.admissible
  have hlength : s.q.length = k := by
    rw [hq, List.length_take, encodeFrame_length]
    omega
  split_ifs with h0 h2
  · have hempty : s.q = [] := List.length_eq_zero_iff.mp (hlength.trans h0)
    have hr : iterationOf s = .idle := by rw [iterationOf_eq, hempty, fromSeek_nil]
    exact exec_decode_nil_of_stops hr rfl rfl
  · have hheader : s.q[0]? = some 0xAA := by
      rw [hq, List.getElem?_take_of_lt (by omega)]
      rfl
    exact exec_decode_nil_of_stops (fromSeek_needLen hheader (by omega)) rfl rfl
  · have hcand : Candidate s.config.maxFrame s.q 0x04 := hq ▸ candidate_take_encodeFrame hmax r (by omega)
    obtain ⟨-, -, hlen, -⟩ := id hcand
    have hshort : s.q.length < (0x04 : Byte).toNat + 4 := by
      rw [hlength]
      exact Nat.lt_succ_of_le hk
    exact exec_decode_nil_of_stops (fromSeek_needBody hcand hshort) rfl (eventOf_needBody hlen _)

/-! ## A wrong checksum byte (R127 (d)) -/

theorem fromSeek_wireBytes_of_ne {maxFrame : Nat} (hm : 8 ≤ maxFrame) {r : Reading} {c : Byte}
    (hc : c ≠ frameChecksum r) :
    fromSeek maxFrame (wireBytes r.soilMoisture r.lightIntensity c) = .discard .checksumMismatch 0xAA := by
  have hcand : Candidate maxFrame (wireBytes r.soilMoisture r.lightIntensity c) 0x04 :=
    ⟨Nat.le_of_ble_eq_true rfl, rfl, rfl, by decide, hm⟩
  have hsum : cksum (((wireBytes r.soilMoisture r.lightIntensity c).drop 1).take 5) = frameChecksum r := rfl
  rw [fromSeek_candidate hcand, fromNeedBody_full (len := 0x04) (last := 0x55) (c := c) rfl rfl rfl,
    if_neg (not_not.mpr rfl), if_pos]
  exact fun h => hc (h.symm.trans hsum)

theorem readings_le_removed (r : IterResult) : 8 * r.readings.length ≤ removed r := by
  cases r <;> simp [IterResult.readings, removed]

/-- A DECODE without arrivals takes eight bytes for each reading. -/
theorem readings_le_of_no_arrivals (s : State) : 8 * (decodeRun [] 0 s).readings ≤ s.count := by
  generalize hnil : ([] : List (List Byte)) = arrivals
  induction arrivals, s using decode_induction with
  | stop arrivals s h =>
    rw [decodeRun_of_stops _ _ h]
    exact Nat.zero_le _
  | go arrivals s h ih =>
    subst hnil
    have hrest : 8 * (decodeRun [] 0 (iterate s)).readings ≤ (iterate s).count := ih rfl
    have hcount : (iterate s).count = s.count - removed (iterationOf s) := applyIteration_count _ _
    have hfits := removed_le_count s
    have hfirst := readings_le_removed (iterationOf s)
    rw [decodeRun_of_continues _ _ h, decodeRun_readings]
    change 8 * (0 + _ + (decodeRun [] 0 (iterate s)).readings) ≤ _
    omega

/-- Fewer than eight bytes and no arrivals: no reading. -/
theorem no_reading_of_count_lt {s : State} (h : s.count < 8) :
    (decodeRun [] 0 s).readings = 0 ∧ (decodeRun [] 0 s).state.rd = s.rd := by
  obtain ⟨rd, -, -, hrd, -, hcount, -⟩ := decodeRun_outputs [] 0 s
  have hle := readings_le_of_no_arrivals s
  have hnone : rd = [] := List.length_eq_zero_iff.mp (by omega)
  subst hnone
  exact ⟨hcount, hrd.trans (List.append_nil _)⟩

/-- Settles O53: the checksum test rejects the frame, and the seven bytes left hold no other. -/
theorem corruptedChecksumYieldsNoReading : Obligations.CorruptedChecksumYieldsNoReading := by
  intro s r c hs hc hq
  obtain ⟨-, -, hmax, -⟩ := hs.admissible
  have hr : iterationOf s = .discard .checksumMismatch 0xAA := by
    rw [iterationOf_eq, hq, fromSeek_wireBytes_of_ne hmax hc]
  have hrd : (iterate s).rd = s.rd := by simp [iterate, hr, IterResult.readings]
  constructor
  · refine ⟨_, exec_dstep s, ?_, ?_, hrd⟩
    · simp [iterate, hr, hq, removed]
    · simp [iterate, hr, eventOf]
  · have hseven : (iterate s).count < 8 := by
      have hcount : s.count = 8 := by rw [← s.q_length, hq, wireBytes_length]
      simp [iterate, hr, hcount, removed]
    obtain ⟨hnone, hsame⟩ := no_reading_of_count_lt hseven
    have hgo : (iterationOf s).stops = false := by rw [hr]; rfl
    refine ⟨_, exec_decode_of_continues [] hgo (w := iterate s) rfl, hsame.trans hrd, ?_⟩
    rw [List.tail_nil, hnone, hr]
    simp [iterate, IterResult.readings]

end Sys2Proof.Machine
end

section
/-! The statements of 43_frame_encoder.md: the frame word ENCODE answers (R140), the bytes SEND transmits (R143), and a
reading sent over a clean line to a receiver that decodes it (R44, R127 (a), R143). -/

namespace Sys2Proof.Machine

/-! ## ENCODE (R140) -/

theorem exec_encode (r : Reading) (s : State) :
    exec (.encode r) s = .next { s with txRes := s.txRes ++ [.frame (packFrame (encodeFrame r))] } := rfl

/-- Settles O32: each byte of the frame is the number that stands in its place of the frame word
(`extractLsb'_packFrame`). -/
theorem encodeBuildsTheFrame : Obligations.EncodeBuildsTheFrame := by
  intro s r
  have hsoil := r.soilMoisture.isLt
  have hlight := r.lightIntensity.isLt
  have hsum := (frameChecksum r).isLt
  have hchecksum : (packFrame (encodeFrame r)).extractLsb' 8 8 = frameChecksum r := extractLsb'_packFrame (by omega)
  refine ⟨fun arg => decode_tx_encode arg [] r, _, exec_encode r s, rfl, ?header, ?len, ?soilHi, ?soilLo, ?lightHi,
    ?lightLo, ?checksum, ?tail⟩
  case checksum => rw [hchecksum, frameChecksum_toNat]
  case header => exact extractLsb'_packFrame (by change _ = 0xAA; omega)
  case len => exact extractLsb'_packFrame (by change _ = 4; omega)
  case tail => exact extractLsb'_packFrame (by change _ = 0x55; omega)
  case soilHi => exact extractLsb'_packFrame (v := hiByte _) (by rw [hiByte_toNat]; omega)
  case soilLo => exact extractLsb'_packFrame (v := loByte _) (by rw [loByte_toNat]; omega)
  case lightHi => exact extractLsb'_packFrame (v := hiByte _) (by rw [hiByte_toNat]; omega)
  case lightLo => exact extractLsb'_packFrame (v := loByte _) (by rw [loByte_toNat]; omega)

/-! ## SEND (R143) -/

/-- `sendByte` once per byte is one append to `TX` (D16). -/
theorem sendBytes_eq (bs : List Byte) (s : State) : sendBytes bs s = { s with tx := s.tx ++ bs } := by
  induction bs generalizing s with
  | nil => rw [sendBytes, List.append_nil]
  | cons b rest ih => rw [sendBytes, ih, emitTx, List.append_assoc, List.singleton_append]

theorem exec_send (r : Reading) (s : State) :
    exec (.send r) s = .next { s with tx := s.tx ++ encodeFrame r, txRes := s.txRes ++ [.done] } := by
  rw [exec, execSend, sendBytes_eq, respond]

/-- Settles O34: the eight bytes are appended as one (`sendBytes_eq`). -/
theorem sendTransmitsTheFrameInOrder : Obligations.SendTransmitsTheFrameInOrder :=
  fun s r => ⟨fun arg => decode_tx_send arg [] r, exec_send r s, exec_encode r s, rfl, rfl, rfl⟩

/-! ## From sender to receiver (R44, R127 (a), R143) -/

/-- A run takes the first pending transaction and goes on with the rest. -/
theorem run_succ_of_exec {s t : State} {tr : Transaction} {rest : List Transaction} {i : Instr} (n : Nat)
    (ha : s.config.Admissible) (hinput : s.input = tr :: rest) (hdecode : decode tr = .ok i)
    (ht : exec i { s with input := rest } = .next t) : run (n + 1) s = run n t := by
  have hstep : step s = .next t := (stepRunsTheDecodedInstruction s tr rest i ha hinput hdecode).trans ht
  rw [run, hstep]

/-- A SEND as one step: in the view only the sender's two streams grow. -/
theorem run_send {s : State} {r : Reading} {rest : List Transaction} (n : Nat) (hs : s.Inv)
    (hinput : s.input = .txOp 0x90000 [] r :: rest) :
    ∃ t, run (n + 1) s = run n t ∧ t.Inv ∧
      t.view = { s.view with tx := s.tx ++ encodeFrame r, txRes := s.txRes ++ [.done], input := rest } :=
  ⟨_, run_succ_of_exec n hs.admissible hinput (decode_tx_send 0 [] r) (exec_send r _), hs.congr rfl rfl rfl rfl, rfl⟩

/-- Arrivals that fit are appended to the content, and none is evicted (R90). -/
theorem run_arrivals_of_fits {s : State} {bs : List Byte} {rest : List Transaction} (hs : s.Inv)
    (hfits : s.q.length + bs.length ≤ s.config.capacity) (hinput : s.input = bs.map Transaction.arr ++ rest) :
    ∃ t, run bs.length s = .next t ∧ t.Inv ∧ t.view = { s.view with q := s.q ++ bs, input := rest } := by
  have hview : (pushAll bs s).view = { s.view with q := s.q ++ bs } := by
    rw [view_pushAll hs, Nat.sub_eq_zero_of_le hfits, List.drop_zero]
  exact ⟨_, run_arrivals bs hs.admissible hinput, (hs.pushAll bs).congr rfl rfl rfl rfl,
    congrArg (fun v : View => { v with input := rest }) hview⟩

/-- A DECODE of a frame alone as one step (`roundTripDecodesOnce`). -/
theorem run_decode_of_frame {s : State} {r : Reading} (hs : s.Inv) (hq : s.q = encodeFrame r)
    (hinput : s.input = [.rxOp .polling 0x70000 [] []]) :
    ∃ t, run 1 s = .next t ∧
      t.view = { s.view with
        q := []
        rd := s.view.rd ++ [r]
        ev := s.view.ev ++ [acceptEvent, idleEvent]
        rxRes := s.view.rxRes ++ [.count 1]
        input := [] } := by
  obtain ⟨t, ht, hview, -⟩ := roundTripDecodesOnce { s with input := [] } r (hs.congr rfl rfl rfl rfl) hq
  exact ⟨t, run_succ_of_exec 0 hs.admissible hinput (decode_rx_decode 0 [] []) ht, hview⟩

/-- Settles O57: the SEND, the eight arrivals and the DECODE, one after the other; the frame fits because CAPACITY is at
least 8 (R6). -/
theorem readingTravelsFromSenderToReceiver : Obligations.ReadingTravelsFromSenderToReceiver := by
  intro s r hs hempty hinput
  obtain ⟨hcapacity, -⟩ := hs.admissible
  obtain ⟨u, hsend, hu, hviewU⟩ := run_send 9 hs hinput
  have hconfigU : u.config = s.config := congrArg View.config hviewU
  have hemptyU : u.q = [] := (congrArg View.q hviewU).trans hempty
  have hfits : u.q.length + (encodeFrame r).length ≤ u.config.capacity := by
    rw [hemptyU, hconfigU]
    exact hcapacity
  obtain ⟨v, harrive, hv, hviewV⟩ := run_arrivals_of_fits hu hfits (congrArg View.input hviewU)
  have hqV : v.q = encodeFrame r := (congrArg View.q hviewV).trans (congrArg (· ++ encodeFrame r) hemptyU)
  obtain ⟨t, hdecode, hviewT⟩ := run_decode_of_frame hv hqV (congrArg View.input hviewV)
  refine ⟨t, ?_, ?_⟩
  · calc run (9 + 1) s = run (8 + 1) u := hsend
      _ = run 1 v := run_add 1 harrive
      _ = .next t := hdecode
  · rw [hviewT, hviewV, hviewU]
    simp [State.view, hempty]

end Sys2Proof.Machine
end

section
/-! The statements of 60_exceptions.md: who may issue what (R162), which responses are failures (R150 to R152), the five
recovered errors of the decoder (R153 to R157), and that nothing halts the core (R161, R164). -/

namespace Sys2Proof.Machine

/-! ## What an instruction does to the responses and to what is pending (R150, R151, R152) -/

/-- The status an instruction is answered with: 1 for a failed PEEK, 2 for a failed POP, OK otherwise. -/
def statusOf (s : State) : Instr → BitVec 2
  | .peek offset => if s.q.length ≤ offset.toNat then 1 else 0
  | .pop => if s.q = [] then 2 else 0
  | .reset _ => 0
  | .cksum _ _ => 0
  | .push _ _ => 0
  | .size => 0
  | .dstep => 0
  | .decode _ => 0
  | .encode _ => 0
  | .send _ => 0
  | .frame _ _ _ => 0

theorem statusOf_eq_one_iff (s : State) (i : Instr) :
    statusOf s i = 1 ↔ ∃ offset, i = .peek offset ∧ s.q.length ≤ offset.toNat := by
  cases i with
  | peek offset => simp [statusOf]
  | pop => by_cases h : s.q = [] <;> simp [statusOf, h]
  | reset | cksum | push | size | dstep | decode | encode | send | frame => simp [statusOf]

theorem statusOf_eq_two_iff (s : State) (i : Instr) : statusOf s i = 2 ↔ i = .pop ∧ s.q = [] := by
  cases i with
  | peek offset => by_cases h : s.count ≤ offset.toNat <;> simp [statusOf, h]
  | pop => simp [statusOf]
  | reset | cksum | push | size | dstep | decode | encode | send | frame => simp [statusOf]

theorem statusOf_ne_three (s : State) (i : Instr) : statusOf s i ≠ 3 := by
  cases i with
  | peek offset => by_cases h : s.count ≤ offset.toNat <;> simp [statusOf, h]
  | pop => by_cases h : s.q = [] <;> simp [statusOf, h]
  | reset | cksum | push | size | dstep | decode | encode | send | frame => simp [statusOf]

/-- From `s` to `u` no response has been made, and nothing but arrivals has come before what is pending. -/
structure Unanswered (s u : State) : Prop where
  rxRes : u.rxRes = s.rxRes
  txRes : u.txRes = s.txRes
  input : ∃ bs : List Byte, u.input = bs.map Transaction.arr ++ s.input

theorem Unanswered.of_eq {s u : State} (hrx : u.rxRes = s.rxRes) (htx : u.txRes = s.txRes) (hin : u.input = s.input) :
    Unanswered s u := ⟨hrx, htx, [], hin⟩

theorem Unanswered.refl (s : State) : Unanswered s s := .of_eq rfl rfl rfl

/-- Every instruction completes, with no response or with one of its status, and takes nothing from what is pending. -/
theorem exec_answers (i : Instr) (s : State) :
    ∃ u, Unanswered s u ∧
      (exec i s = .next u ∨ ∃ side p, exec i s = .next (respond side p u) ∧ p.status = statusOf s i) := by
  cases i with
  | reset side =>
    cases side with
    | receiver => exact ⟨clearBuffer s, .of_eq rfl rfl rfl, .inr ⟨_, _, rfl, rfl⟩⟩
    | sender => exact ⟨s, .refl s, .inr ⟨_, _, rfl, rfl⟩⟩
  | cksum side bytes => exact ⟨s, .refl s, .inr ⟨_, _, rfl, rfl⟩⟩
  | push port byte =>
    have hu : Unanswered s (pushByte byte s) := .of_eq (by simp) (by simp) (by simp)
    cases port with
    | arr => exact ⟨_, hu, .inl rfl⟩
    | op => exact ⟨_, hu, .inr ⟨_, _, rfl, rfl⟩⟩
  | peek offset =>
    cases hp : peekByte offset.toNat s with
    | some b =>
      have hlt : offset.toNat < s.q.length := (List.getElem?_eq_some_iff.mp (peekByte_eq _ s ▸ hp)).1
      exact ⟨s, .refl s, .inr ⟨_, _, exec_peek_of_some hp, (if_neg hlt.not_ge).symm⟩⟩
    | none =>
      have hle : s.q.length ≤ offset.toNat := List.getElem?_eq_none_iff.mp (peekByte_eq _ s ▸ hp)
      exact ⟨s, .refl s, .inr ⟨_, _, exec_peek_of_none hp, (if_pos hle).symm⟩⟩
  | pop =>
    cases hp : peekByte 0 s with
    | some b =>
      have hne : s.q ≠ [] := List.ne_nil_of_length_pos (List.getElem?_eq_some_iff.mp (peekByte_eq _ s ▸ hp)).1
      exact ⟨dropFront 1 s, .of_eq rfl rfl rfl, .inr ⟨_, _, exec_pop_of_some hp, (if_neg hne).symm⟩⟩
    | none =>
      have hle : s.q.length ≤ 0 := List.getElem?_eq_none_iff.mp (peekByte_eq _ s ▸ hp)
      have hnil : s.q = [] := List.length_eq_zero_iff.mp (Nat.le_zero.mp hle)
      exact ⟨s, .refl s, .inr ⟨_, _, exec_pop_of_none hp, (if_pos hnil).symm⟩⟩
  | size => exact ⟨s, .refl s, .inr ⟨_, _, rfl, rfl⟩⟩
  | dstep =>
    exact ⟨iterate s, .of_eq (by simp [iterate]) (by simp [iterate]) (by simp [iterate]),
      .inr ⟨_, _, exec_dstep s, rfl⟩⟩
  | decode arrivals =>
    exact ⟨_, ⟨by simp, by simp, _, by rw [arriveNext_input, decodeRun_input]⟩,
      .inr ⟨_, _, exec_decode arrivals s, rfl⟩⟩
  | encode reading => exact ⟨s, .refl s, .inr ⟨_, _, rfl, rfl⟩⟩
  | send reading => exact ⟨sendBytes _ s, .of_eq (by simp) (by simp) (by simp), .inr ⟨_, _, rfl, rfl⟩⟩
  | frame soil light checksum => exact ⟨pushAll _ s, .of_eq (by simp) (by simp) (by simp), .inl rfl⟩

/-- Settles O28: the one response of an instruction has the status `statusOf` (`exec_answers`). -/
theorem failuresComeFromPeekAndPop : Obligations.FailuresComeFromPeekAndPop := by
  intro i s
  have hrules (p : Response) (hp : p.status = statusOf s i) :
      (p.status = 1 ↔ ∃ offset, i = .peek offset ∧ s.q.length ≤ offset.toNat) ∧
        (p.status = 2 ↔ i = .pop ∧ s.q = []) ∧ p.status ≠ 3 :=
    hp ▸ ⟨statusOf_eq_one_iff s i, statusOf_eq_two_iff s i, statusOf_ne_three s i⟩
  obtain ⟨u, hu, he | ⟨side, p, he, hp⟩⟩ := exec_answers i s
  · exact ⟨u, [], [], he, by simp [hu.rxRes], by simp [hu.txRes], by simp, by simp⟩
  · cases side with
    | receiver => exact ⟨_, [p], [], he, by simp [hu.rxRes], by simp [hu.txRes], by simp, by simpa using hrules p hp⟩
    | sender => exact ⟨_, [], [p], he, by simp [hu.rxRes], by simp [hu.txRes], by simp, by simpa using hrules p hp⟩

/-! ## Nothing halts the core (R161, R164, R173) -/

/-- Settles O9: there is no transaction to take. -/
theorem stepWithNothingPendingStutters : Obligations.StepWithNothingPendingStutters := by
  intro s hadm hinput
  simp only [step, if_pos hadm, takeTransaction, hinput]

theorem exists_decode_of_hasMeaning {t : Transaction} (h : hasMeaning t = true) : ∃ i, decode t = .ok i := by
  cases hd : decode t with
  | ok i => exact ⟨i, rfl⟩
  | error e => simp [hasMeaning, hd] at h

theorem exec_input (i : Instr) {s t : State} (h : exec i s = .next t) :
    ∃ bs : List Byte, t.input = bs.map Transaction.arr ++ s.input := by
  obtain ⟨u, hu, he | ⟨side, p, he, -⟩⟩ := exec_answers i s
  · cases he.symm.trans h
    exact hu.input
  · cases he.symm.trans h
    cases side <;> exact hu.input

/-- What an instruction puts before the pending transactions are arrivals, and they have a meaning. -/
theorem hasMeaning_of_exec {i : Instr} {s t : State} (h : exec i s = .next t)
    (hs : ∀ tr ∈ s.input, hasMeaning tr = true) : ∀ tr ∈ t.input, hasMeaning tr = true := by
  intro tr htr
  obtain ⟨bs, hbs⟩ := exec_input i h
  rw [hbs, List.mem_append, List.mem_map] at htr
  obtain ⟨b, -, rfl⟩ | hold := htr
  · rfl
  · exact hs tr hold

/-- Settles O13: a pending transaction decodes, its instruction completes and keeps the invariant (`StepClosed.exec`),
and what is pending afterwards has a meaning. -/
theorem safeStatesStepToSafeStates : Obligations.SafeStatesStepToSafeStates := by
  rintro s ⟨hinv, hmeaning⟩
  cases hinput : s.input with
  | nil => exact ⟨s, stepWithNothingPendingStutters s hinv.admissible hinput, hinv, hmeaning⟩
  | cons tr rest =>
    rw [hinput] at hmeaning
    obtain ⟨hfirst, hrest⟩ := List.forall_mem_cons.mp hmeaning
    obtain ⟨i, hi⟩ := exists_decode_of_hasMeaning hfirst
    obtain ⟨t, ht, hinvT⟩ := stepClosed_inv.exec i (stepClosed_inv.setInput rest hinv)
    exact ⟨t, (stepRunsTheDecodedInstruction s tr rest i hinv.admissible hinput hi).trans ht, hinvT,
      hasMeaning_of_exec ht hrest⟩

/-! ## The arrival context (R162, D22) -/

theorem exists_push_of_mayIssue_arrival {i : Instr} (h : mayIssue .arrival i = true) : ∃ port b, i = .push port b := by
  cases i with
  | push port byte => exact ⟨port, byte, rfl⟩
  | reset | cksum | peek | pop | size | dstep | decode | encode | send | frame => cases h

/-- A PUSH on the operation port is one by its port (R70). -/
theorem port_of_decodeReceiverCmd {cmd : Cmd} {d : List Byte} {during : List (List Byte)} {port : PushPort} {b : Byte}
    (h : decodeReceiverCmd cmd d during = .ok (.push port b)) : port = .op := by
  unfold decodeReceiverCmd at h
  split at h
  case h_2 => cases (decodeCksum_ok h).1
  case h_3 =>
    cases h
    rfl
  all_goals cases h

theorem exists_push_op_of_mayIssue_arrival {cmd : Cmd} {d : List Byte} {during : List (List Byte)} {i : Instr}
    (h : decodeReceiverCmd cmd d during = .ok i) (hmay : mayIssue .arrival i = true) : ∃ b, i = .push .op b := by
  obtain ⟨port, b, rfl⟩ := exists_push_of_mayIssue_arrival hmay
  exact ⟨b, by rw [port_of_decodeReceiverCmd h]⟩

/-- Settles O6: what the arrival context may issue is a PUSH, and on the operation port one of that port. -/
theorem arrivalContextOnlyPushes : Obligations.ArrivalContextOnlyPushes := by
  refine ⟨fun _ => rfl, fun cmd d during i h => ?_, fun cmd d during i h hpush => ?_⟩
  · obtain ⟨hcmd, hmay, -⟩ := decodeReceiver_ok h
    exact exists_push_op_of_mayIssue_arrival hcmd hmay
  · obtain ⟨hcmd, -, -⟩ := decodeReceiver_ok h
    have hmay : mayIssue .arrival i = false := by
      rw [Bool.eq_false_iff]
      intro hmay
      obtain ⟨b, hb⟩ := exists_push_op_of_mayIssue_arrival hcmd hmay
      exact hpush b hb
    simp only [decode, decodeReceiver, hcmd, hmay, if_true]

/-! ## The recovered errors of the decoder (R153 to R157) -/

/-- A DSTEP that ends in an error removes the front byte, adds its event and its result, and changes nothing else. -/
theorem dstep_of_discard {s : State} {kind : ErrorKind} {d : Byte} (hr : iterationOf s = .discard kind d) :
    ∃ t, exec .dstep s = .next t ∧
      t.view = { s.view with
        q := s.q.drop 1
        ev := s.ev ++ [⟨.error kind, d⟩]
        rxRes := s.rxRes ++ [.iteration (.discard kind d)] } ∧
      ∀ a, t.mem.read? a = s.mem.read? a := by
  obtain ⟨t, ht, hview, hmem⟩ := view_dstep hr
  refine ⟨t, ht, ?_, fun _ => by rw [hmem]⟩
  rw [hview, IterResult.readings, List.append_nil]
  rfl

/-- Steps 7 to 10: the result on a fully buffered candidate. -/
theorem iterationOf_full {s : State} {len last c : Byte} (hcand : Candidate s.config.maxFrame s.q len)
    (hlast : s.q[len.toNat + 3]? = some last) (hc : s.q[len.toNat + 2]? = some c) :
    iterationOf s =
      if last ≠ 0x55 then .discard .tailMismatch 0xAA
      else if (((s.q.drop 1).take (len.toNat + 1)).map BitVec.toNat).sum % 256 ≠ c.toNat then
        .discard .checksumMismatch 0xAA
      else if len ≠ 4 then .discard .unexpectedPayloadWidth 0xAA
      else .accept (frameReading (s.q.take (len.toNat + 4))) := by
  obtain ⟨-, -, hlen, -⟩ := id hcand
  simp only [← cksum_eq_iff, ne_eq, iterationOf_eq, fromSeek_candidate hcand, fromNeedBody_full hlen hlast hc]

/-- Settles O37: the first test of an iteration (step 2) fails. -/
theorem noiseByteIsDiscarded : Obligations.NoiseByteIsDiscarded := by
  intro s d rest _ hq hd
  have hr : iterationOf s = .discard .noiseByte d := by rw [iterationOf_eq, hq, fromSeek_noise _ rest hd]
  obtain ⟨t, ht, hview, hmem⟩ := dstep_of_discard hr
  rw [hq] at hview
  exact ⟨t, ht, hview, rfl, hmem⟩

/-- Settles O38: the length test (step 4) fails. -/
theorem invalidLengthDiscardsTheHeader : Obligations.InvalidLengthDiscardsTheHeader := by
  intro s len x rest _ hq hlen
  have hr : iterationOf s = .discard .invalidLength 0xAA := by
    rw [iterationOf_eq, hq, fromSeek_invalidLength rest hlen]
  obtain ⟨t, ht, hview, hmem⟩ := dstep_of_discard hr
  rw [hq] at hview
  exact ⟨t, ht, hview, rfl, hmem⟩

/-- Settles O39: the tail test (step 7) comes before those of checksum and width. -/
theorem tailMismatchDiscardsTheHeader : Obligations.TailMismatchDiscardsTheHeader := by
  intro s len last _ hcand hlast htail
  have hfull : len.toNat + 3 < s.q.length := (List.getElem?_eq_some_iff.mp hlast).1
  have hc := List.getElem?_eq_getElem (l := s.q) (i := len.toNat + 2) (by omega)
  have hr : iterationOf s = .discard .tailMismatch 0xAA := by rw [iterationOf_full hcand hlast hc, if_pos htail]
  obtain ⟨t, ht, hview, hmem⟩ := dstep_of_discard hr
  exact ⟨t, ht, hview, rfl, hmem⟩

/-- Settles O40: the tail test passes, the checksum test (step 8) fails. -/
theorem checksumMismatchDiscardsTheHeader : Obligations.ChecksumMismatchDiscardsTheHeader := by
  intro s len c _ hcand htail hc hsum
  have hr : iterationOf s = .discard .checksumMismatch 0xAA := by
    rw [iterationOf_full hcand htail hc, if_neg (not_not.mpr rfl), if_pos hsum]
  obtain ⟨t, ht, hview, hmem⟩ := dstep_of_discard hr
  exact ⟨t, ht, hview, rfl, hmem⟩

/-- Settles O41: tail and checksum test pass, the width test (step 9) fails. -/
theorem unexpectedWidthDiscardsTheHeader : Obligations.UnexpectedWidthDiscardsTheHeader := by
  intro s len c _ hcand htail hc hsum hwidth
  have hr : iterationOf s = .discard .unexpectedPayloadWidth 0xAA := by
    rw [iterationOf_full hcand htail hc, if_neg (not_not.mpr rfl), if_neg (not_not.mpr hsum), if_pos hwidth]
  obtain ⟨t, ht, hview, hmem⟩ := dstep_of_discard hr
  exact ⟨t, ht, hview, rfl, hmem⟩

end Sys2Proof.Machine
end

section
/-! The statements of 70_reset_and_hazards.md: what RESET does (R170), and that decoding in time never loses a byte
(R176). -/

namespace Sys2Proof.Machine

/-! ## RESET (R170) -/

theorem view_clearBuffer (s : State) : (clearBuffer s).view = { s.view with q := [] } := by
  simp [State.view, q_clearBuffer]

/-- Settles O20: RESET of the receiver is `clearBuffer` and its response, RESET of the sender is its response. -/
theorem resetEmptiesTheBuffer : Obligations.ResetEmptiesTheBuffer := by
  refine fun s => ⟨⟨respond .receiver .done (clearBuffer s), rfl, ?_, rfl, rfl, fun _ => rfl⟩, rfl⟩
  rw [view_respond_receiver, view_clearBuffer]
  rfl

/-! ## Decoding in time (R176) -/

/-- What a DECODE leaves is shorter than the longest frame: the iteration that ended it stopped. -/
theorem length_lt_of_exec_decode {s t : State} {arrivals : List (List Byte)} (hs : s.Inv)
    (ht : exec (.decode arrivals) s = .next t) : t.q.length + 1 ≤ t.config.maxFrame := by
  obtain ⟨u, hu, hinv, hstop, -⟩ := exec_decode_ends arrivals hs
  cases hu.symm.trans ht
  obtain ⟨-, -, hmax, -⟩ := hinv.admissible
  exact length_lt_of_stops hmax hstop

/-- Settles O56: the DECODE leaves at most `MAX_FRAME - 1` bytes, so the arrivals fit behind them
(`run_arrivals_of_fits`). -/
theorem decodingInTimeNeverEvicts : Obligations.DecodingInTimeNeverEvicts := by
  intro s t arrivals p rest hs ht hp
  have hpending : State.Inv { t with input := p.map Transaction.arr ++ rest } :=
    stepClosed_inv.setInput _ (stepClosed_inv.exec_next hs ht)
  have hconfig : t.config = s.config := (stepClosed_config s.config).exec_next rfl ht
  have hleft : t.q.length + 1 ≤ t.config.maxFrame := length_lt_of_exec_decode hs ht
  have hfits : t.q.length + p.length ≤ t.config.capacity := by
    rw [hconfig] at hleft ⊢
    omega
  obtain ⟨u, hrun, -, hview⟩ := run_arrivals_of_fits hpending hfits rfl
  exact ⟨u, hrun, congrArg View.q hview, congrArg View.input hview⟩

end Sys2Proof.Machine
end

section
/-! What a step answers when the pending transaction has no meaning (U5, U6, U9; D20, D22): the decoder's reason. -/

namespace Sys2Proof.Machine

theorem takeTransaction_of_input_cons {s : State} {t : Transaction} {rest : List Transaction} (h : s.input = t :: rest) :
    takeTransaction s = some (t, { s with input := rest }) := by
  rw [takeTransaction, h]

/-- Settles O5: with the parameters admitted and the transaction taken, the decoder's answer alone decides. -/
theorem stepRefusesWhatDoesNotDecode : Obligations.StepRefusesWhatDoesNotDecode := by
  intro s t rest e hadm hinput hdecode
  have htake : takeTransaction s = some (t, { s with input := rest }) := takeTransaction_of_input_cons hinput
  simp only [step, if_pos hadm, htake, hdecode]

end Sys2Proof.Machine
end
